-- ==== Sys2Proof/Word.lean ====
section
/-! DEFINITION. The words of the machine: bytes, 16-bit words, and the three operand widths of an instruction. Every value is
unsigned and no value is ever sign-extended (00_scope.md R8, 30_encoding.md R94). -/

namespace Sys2Proof

/-- A memory byte or a general register: 8 bits, unsigned (10_state.md R21, R40). -/
abbrev Byte := BitVec 8

/-- An instruction word, `I`, `pc` or a stack slot: 16 bits, unsigned (10_state.md R25, R30, R32). -/
abbrev Word := BitVec 16

/-- A 4-bit field: a register selector, a sprite height or a key number (30_encoding.md R91). -/
abbrev Nibble := BitVec 4

/-- A 12-bit address field `NNN` (30_encoding.md R91). -/
abbrev Addr12 := BitVec 12

end Sys2Proof
end

