-- ==== Sys2Proof/Syntax.lean ====
section
/-! DEFINITION. The instructions as syntax: one constructor per row of spec/opcode_table.json, in the order of the table
(30_encoding.md R96). An operand has exactly the width of its field (R91, R94), so no out-of-range operand can be written. -/

namespace Sys2Proof

/-- The 34 instructions (30_encoding.md R96). `x` and `y` select general registers, `kk` is the immediate byte, `nnn` the
address field, `n` the sprite height. `shrVx` and `shlVx` keep the `Y` field they ignore (R100), so that every legal word is
the word of exactly one instruction. -/
inductive Instr where
  | cls                                     -- CLS           00E0
  | ret                                     -- RET           00EE
  | jpNnn (nnn : Addr12)                    -- JP nnn        1nnn
  | callNnn (nnn : Addr12)                  -- CALL nnn      2nnn
  | seVxKk (x : Nibble) (kk : Byte)         -- SE Vx,kk      3xkk
  | sneVxKk (x : Nibble) (kk : Byte)        -- SNE Vx,kk     4xkk
  | seVxVy (x y : Nibble)                   -- SE Vx,Vy      5xy0
  | ldVxKk (x : Nibble) (kk : Byte)         -- LD Vx,kk      6xkk
  | addVxKk (x : Nibble) (kk : Byte)        -- ADD Vx,kk     7xkk
  | ldVxVy (x y : Nibble)                   -- LD Vx,Vy      8xy0
  | orVxVy (x y : Nibble)                   -- OR Vx,Vy      8xy1
  | andVxVy (x y : Nibble)                  -- AND Vx,Vy     8xy2
  | xorVxVy (x y : Nibble)                  -- XOR Vx,Vy     8xy3
  | addVxVy (x y : Nibble)                  -- ADD Vx,Vy     8xy4
  | subVxVy (x y : Nibble)                  -- SUB Vx,Vy     8xy5
  | shrVx (x y : Nibble)                    -- SHR Vx        8xy6
  | subnVxVy (x y : Nibble)                 -- SUBN Vx,Vy    8xy7
  | shlVx (x y : Nibble)                    -- SHL Vx        8xyE
  | sneVxVy (x y : Nibble)                  -- SNE Vx,Vy     9xy0
  | ldINnn (nnn : Addr12)                   -- LD I,nnn      Annn
  | jpV0Nnn (nnn : Addr12)                  -- JP V0,nnn     Bnnn
  | rndVxKk (x : Nibble) (kk : Byte)        -- RND Vx,kk     Cxkk
  | drwVxVyN (x y n : Nibble)               -- DRW Vx,Vy,n   Dxyn
  | skpVx (x : Nibble)                      -- SKP Vx        Ex9E
  | sknpVx (x : Nibble)                     -- SKNP Vx       ExA1
  | ldVxDt (x : Nibble)                     -- LD Vx,DT      Fx07
  | ldVxK (x : Nibble)                      -- LD Vx,K       Fx0A
  | ldDtVx (x : Nibble)                     -- LD DT,Vx      Fx15
  | ldStVx (x : Nibble)                     -- LD ST,Vx      Fx18
  | addIVx (x : Nibble)                     -- ADD I,Vx      Fx1E
  | ldFVx (x : Nibble)                      -- LD F,Vx       Fx29
  | ldBVx (x : Nibble)                      -- LD B,Vx       Fx33
  | ldMemVx (x : Nibble)                    -- LD [I],Vx     Fx55
  | ldVxMem (x : Nibble)                    -- LD Vx,[I]     Fx65
  deriving DecidableEq, Repr

end Sys2Proof
end

