-- ==== Sys2Proof/WellFormed.lean ====
section
/-! DEFINITION. Well-formedness. The operands of an `Instr` are typed by the widths of their fields (30_encoding.md R91, R94),
so every `Instr` is well-formed and needs no check. What can be ill-formed is the record of fields the decoder takes out of a
word before it dispatches: the fields overlap (R91), so `KK` must be `{Y, N}` and `NNN` must be `{X, KK}`. -/

namespace Sys2Proof

/-- The fields of an instruction word (30_encoding.md R91): `OP` = w[15:12], `X` = w[11:8], `Y` = w[7:4], `N` = w[3:0],
`KK` = w[7:0], `NNN` = w[11:0]. -/
structure Fields where
  op  : Nibble
  x   : Nibble
  y   : Nibble
  n   : Nibble
  kk  : Byte
  nnn : Addr12
  deriving DecidableEq, Repr

/-- First check: the immediate byte is the fields `Y` and `N` (30_encoding.md R91). -/
def Fields.kkAgrees (f : Fields) : Bool := f.kk == f.y ++ f.n

/-- Second check: the address field is the fields `X` and `KK` (30_encoding.md R91). -/
def Fields.nnnAgrees (f : Fields) : Bool := f.nnn == f.x ++ f.kk

/-- A field record that comes from some word: its overlapping fields agree. -/
def Fields.wellFormed (f : Fields) : Bool := f.kkAgrees && f.nnnAgrees

end Sys2Proof
end

