-- ==== Sys2Proof/Decode.lean ====
section
/-! DEFINITION. The decoder (30_encoding.md R93), the encoder and the opcode table (R96), each written from its own place in
the spec. Decoding is total on any bytes and rejects by name. The opcode numbers are general knowledge in the spec itself
(R97, 92_eei_decisions.md D1). PRESUMED, unsafe: notes/assumptions/1.md. -/

namespace Sys2Proof

/-- Why bytes are not an instruction. `truncated`: fewer than two bytes. `noPattern w`: the word `w` "matches no known opcode
pattern" (60_exceptions.md R202). -/
inductive DecodeError where
  | truncated
  | noPattern (w : Word)
  deriving DecidableEq, Repr

/-- The fields of a word (30_encoding.md R91). -/
def Fields.ofWord (w : Word) : Fields where
  op  := w.extractLsb' 12 4
  x   := w.extractLsb' 8 4
  y   := w.extractLsb' 4 4
  n   := w.extractLsb' 0 4
  kk  := w.extractLsb' 0 8
  nnn := w.extractLsb' 0 12

/-- Group 0: the whole word selects (30_encoding.md R93). -/
def dispatch0 (f : Fields) : Option Instr :=
  match f.nnn with
  | 0x0E0#12 => some .cls
  | 0x0EE#12 => some .ret
  | _ => none

/-- Group 8: the low nibble selects (30_encoding.md R93). -/
def dispatch8 (f : Fields) : Option Instr :=
  match f.n with
  | 0x0#4 => some (.ldVxVy f.x f.y)
  | 0x1#4 => some (.orVxVy f.x f.y)
  | 0x2#4 => some (.andVxVy f.x f.y)
  | 0x3#4 => some (.xorVxVy f.x f.y)
  | 0x4#4 => some (.addVxVy f.x f.y)
  | 0x5#4 => some (.subVxVy f.x f.y)
  | 0x6#4 => some (.shrVx f.x f.y)
  | 0x7#4 => some (.subnVxVy f.x f.y)
  | 0xE#4 => some (.shlVx f.x f.y)
  | _ => none

/-- Group E: the low byte selects (30_encoding.md R93). -/
def dispatchE (f : Fields) : Option Instr :=
  match f.kk with
  | 0x9E#8 => some (.skpVx f.x)
  | 0xA1#8 => some (.sknpVx f.x)
  | _ => none

/-- Group F: the low byte selects (30_encoding.md R93). -/
def dispatchF (f : Fields) : Option Instr :=
  match f.kk with
  | 0x07#8 => some (.ldVxDt f.x)
  | 0x0A#8 => some (.ldVxK f.x)
  | 0x15#8 => some (.ldDtVx f.x)
  | 0x18#8 => some (.ldStVx f.x)
  | 0x1E#8 => some (.addIVx f.x)
  | 0x29#8 => some (.ldFVx f.x)
  | 0x33#8 => some (.ldBVx f.x)
  | 0x55#8 => some (.ldMemVx f.x)
  | 0x65#8 => some (.ldVxMem f.x)
  | _ => none

/-- The dispatch on the top nibble (30_encoding.md R93). -/
def dispatch (f : Fields) : Option Instr :=
  match f.op with
  | 0x0#4 => dispatch0 f
  | 0x1#4 => some (.jpNnn f.nnn)
  | 0x2#4 => some (.callNnn f.nnn)
  | 0x3#4 => some (.seVxKk f.x f.kk)
  | 0x4#4 => some (.sneVxKk f.x f.kk)
  | 0x5#4 => if f.n = 0x0#4 then some (.seVxVy f.x f.y) else none
  | 0x6#4 => some (.ldVxKk f.x f.kk)
  | 0x7#4 => some (.addVxKk f.x f.kk)
  | 0x8#4 => dispatch8 f
  | 0x9#4 => if f.n = 0x0#4 then some (.sneVxVy f.x f.y) else none
  | 0xA#4 => some (.ldINnn f.nnn)
  | 0xB#4 => some (.jpV0Nnn f.nnn)
  | 0xC#4 => some (.rndVxKk f.x f.kk)
  | 0xD#4 => some (.drwVxVyN f.x f.y f.n)
  | 0xE#4 => dispatchE f
  | 0xF#4 => dispatchF f
  | _ => none   -- unreachable: the sixteen nibbles are listed above

/-- `Decode(w)`: a total function of the 16 bits of the word alone; none is a decode failure (30_encoding.md R93, R98). -/
def decodeWord (w : Word) : Option Instr := dispatch (Fields.ofWord w)

/-- The word of two bytes in the order they are fetched: the first byte is the high one (20_memory.md R60). -/
def wordOfBytes (hi lo : Byte) : Word := hi ++ lo

/-- The high byte of a word, stored first (20_memory.md R60). -/
def highByte (w : Word) : Byte := w.extractLsb' 8 8

/-- The low byte of a word, stored second (20_memory.md R60). -/
def lowByte (w : Word) : Byte := w.extractLsb' 0 8

/-- Decoding from bytes: one instruction and the bytes after it. Every instruction is exactly two bytes (30_encoding.md R90,
R101). -/
def decode : List Byte → Except DecodeError (Instr × List Byte)
  | hi :: lo :: rest =>
    match decodeWord (wordOfBytes hi lo) with
    | some i => .ok (i, rest)
    | none => .error (.noPattern (wordOfBytes hi lo))
  | _ => .error .truncated

/-- Format NNN: `OP` and the address field (30_encoding.md R92). -/
def wordNNN (op : Nibble) (nnn : Addr12) : Word := op ++ nnn

/-- Format XKK: `OP`, `X` and the immediate byte (30_encoding.md R92); with a fixed `KK` it is format X. -/
def wordXKK (op x : Nibble) (kk : Byte) : Word := op ++ x ++ kk

/-- Format XYN: `OP`, `X`, `Y` and the low nibble (30_encoding.md R92); with a fixed `N` it is format XY. -/
def wordXYN (op x y n : Nibble) : Word := op ++ x ++ y ++ n

/-- The word of an instruction, from the pattern column of the table in 30_encoding.md R96. -/
def encode : Instr → Word
  | .cls => 0x00E0
  | .ret => 0x00EE
  | .jpNnn nnn => wordNNN 0x1 nnn
  | .callNnn nnn => wordNNN 0x2 nnn
  | .seVxKk x kk => wordXKK 0x3 x kk
  | .sneVxKk x kk => wordXKK 0x4 x kk
  | .seVxVy x y => wordXYN 0x5 x y 0x0
  | .ldVxKk x kk => wordXKK 0x6 x kk
  | .addVxKk x kk => wordXKK 0x7 x kk
  | .ldVxVy x y => wordXYN 0x8 x y 0x0
  | .orVxVy x y => wordXYN 0x8 x y 0x1
  | .andVxVy x y => wordXYN 0x8 x y 0x2
  | .xorVxVy x y => wordXYN 0x8 x y 0x3
  | .addVxVy x y => wordXYN 0x8 x y 0x4
  | .subVxVy x y => wordXYN 0x8 x y 0x5
  | .shrVx x y => wordXYN 0x8 x y 0x6
  | .subnVxVy x y => wordXYN 0x8 x y 0x7
  | .shlVx x y => wordXYN 0x8 x y 0xE
  | .sneVxVy x y => wordXYN 0x9 x y 0x0
  | .ldINnn nnn => wordNNN 0xA nnn
  | .jpV0Nnn nnn => wordNNN 0xB nnn
  | .rndVxKk x kk => wordXKK 0xC x kk
  | .drwVxVyN x y n => wordXYN 0xD x y n
  | .skpVx x => wordXKK 0xE x 0x9E
  | .sknpVx x => wordXKK 0xE x 0xA1
  | .ldVxDt x => wordXKK 0xF x 0x07
  | .ldVxK x => wordXKK 0xF x 0x0A
  | .ldDtVx x => wordXKK 0xF x 0x15
  | .ldStVx x => wordXKK 0xF x 0x18
  | .addIVx x => wordXKK 0xF x 0x1E
  | .ldFVx x => wordXKK 0xF x 0x29
  | .ldBVx x => wordXKK 0xF x 0x33
  | .ldMemVx x => wordXKK 0xF x 0x55
  | .ldVxMem x => wordXKK 0xF x 0x65

/-- The two bytes of an instruction, high byte first (30_encoding.md R90). -/
def encodeBytes (i : Instr) : List Byte := [highByte (encode i), lowByte (encode i)]

/-- The mnemonic of an instruction, as the table spells it (30_encoding.md R96). -/
def Instr.mnemonic : Instr → String
  | .cls => "CLS"
  | .ret => "RET"
  | .jpNnn _ => "JP nnn"
  | .callNnn _ => "CALL nnn"
  | .seVxKk _ _ => "SE Vx,kk"
  | .sneVxKk _ _ => "SNE Vx,kk"
  | .seVxVy _ _ => "SE Vx,Vy"
  | .ldVxKk _ _ => "LD Vx,kk"
  | .addVxKk _ _ => "ADD Vx,kk"
  | .ldVxVy _ _ => "LD Vx,Vy"
  | .orVxVy _ _ => "OR Vx,Vy"
  | .andVxVy _ _ => "AND Vx,Vy"
  | .xorVxVy _ _ => "XOR Vx,Vy"
  | .addVxVy _ _ => "ADD Vx,Vy"
  | .subVxVy _ _ => "SUB Vx,Vy"
  | .shrVx _ _ => "SHR Vx"
  | .subnVxVy _ _ => "SUBN Vx,Vy"
  | .shlVx _ _ => "SHL Vx"
  | .sneVxVy _ _ => "SNE Vx,Vy"
  | .ldINnn _ => "LD I,nnn"
  | .jpV0Nnn _ => "JP V0,nnn"
  | .rndVxKk _ _ => "RND Vx,kk"
  | .drwVxVyN _ _ _ => "DRW Vx,Vy,n"
  | .skpVx _ => "SKP Vx"
  | .sknpVx _ => "SKNP Vx"
  | .ldVxDt _ => "LD Vx,DT"
  | .ldVxK _ => "LD Vx,K"
  | .ldDtVx _ => "LD DT,Vx"
  | .ldStVx _ => "LD ST,Vx"
  | .addIVx _ => "ADD I,Vx"
  | .ldFVx _ => "LD F,Vx"
  | .ldBVx _ => "LD B,Vx"
  | .ldMemVx _ => "LD [I],Vx"
  | .ldVxMem _ => "LD Vx,[I]"

/-- The match and mask columns of the opcode table, by mnemonic (30_encoding.md R96): a word `w` is the instruction exactly
when `w & mask = match`. Written apart from `encode` and `decodeWord`, so that the three can be compared. -/
def opcodeTable : List (String × Word × Word) :=
  [("CLS", 0x00E0, 0xFFFF), ("RET", 0x00EE, 0xFFFF), ("JP nnn", 0x1000, 0xF000), ("CALL nnn", 0x2000, 0xF000),
   ("SE Vx,kk", 0x3000, 0xF000), ("SNE Vx,kk", 0x4000, 0xF000), ("SE Vx,Vy", 0x5000, 0xF00F),
   ("LD Vx,kk", 0x6000, 0xF000), ("ADD Vx,kk", 0x7000, 0xF000)] ++
  [("LD Vx,Vy", 0x8000, 0xF00F), ("OR Vx,Vy", 0x8001, 0xF00F), ("AND Vx,Vy", 0x8002, 0xF00F),
   ("XOR Vx,Vy", 0x8003, 0xF00F), ("ADD Vx,Vy", 0x8004, 0xF00F), ("SUB Vx,Vy", 0x8005, 0xF00F),
   ("SHR Vx", 0x8006, 0xF00F), ("SUBN Vx,Vy", 0x8007, 0xF00F), ("SHL Vx", 0x800E, 0xF00F)] ++
  [("SNE Vx,Vy", 0x9000, 0xF00F), ("LD I,nnn", 0xA000, 0xF000), ("JP V0,nnn", 0xB000, 0xF000),
   ("RND Vx,kk", 0xC000, 0xF000), ("DRW Vx,Vy,n", 0xD000, 0xF000), ("SKP Vx", 0xE09E, 0xF0FF),
   ("SKNP Vx", 0xE0A1, 0xF0FF)] ++
  [("LD Vx,DT", 0xF007, 0xF0FF), ("LD Vx,K", 0xF00A, 0xF0FF), ("LD DT,Vx", 0xF015, 0xF0FF), ("LD ST,Vx", 0xF018, 0xF0FF),
   ("ADD I,Vx", 0xF01E, 0xF0FF), ("LD F,Vx", 0xF029, 0xF0FF), ("LD B,Vx", 0xF033, 0xF0FF), ("LD [I],Vx", 0xF055, 0xF0FF),
   ("LD Vx,[I]", 0xF065, 0xF0FF)]

/-- The word of an instruction given as a number whose bits `nbits` and above are taken as 0. -/
def tableWord (nbits w : Nat) : Word := BitVec.ofNat 16 (w % 2 ^ nbits)

/-- The instruction the decoder reads from the bits `w`, numbered as the opcode table numbers them: bit 15 is the most
significant bit of the first byte (00_scope.md R9). The bytes are laid out as the machine stores them, high byte first. -/
def decodeTableWord (nbits w : Nat) : Option Instr :=
  match decode [highByte (tableWord nbits w), lowByte (tableWord nbits w)] with
  | .ok (i, _) => some i
  | .error _ => none

end Sys2Proof
end

