-- ==== Sys2Proof/Machine/Event.lean ====
section
/-! DEFINITION. The events of the host and the clock (60_exceptions.md R220). -/

namespace Sys2Proof.Machine

/-- The events that change state (20_memory.md R76, 60_exceptions.md R220), each atomic, in one total order (R78). -/
inductive Event where
  /-- The host requests one step of the engine (60_exceptions.md R223). -/
  | stepRequest
  /-- One firing of the 60 Hz clock source (60_exceptions.md R216). -/
  | tick
  /-- The host reports a key transition (60_exceptions.md R224). -/
  | setKey (k : Nibble) (pressed : Bool)
  /-- The host resets the block (60_exceptions.md R221). -/
  | initialise
  /-- The host loads a program image (60_exceptions.md R222). -/
  | loadProgram (bytes : List Byte)
  deriving DecidableEq, Repr, Inhabited

end Sys2Proof.Machine
end

