-- ==== Sys2Proof/Config.lean ====
section
/-! DEFINITION. The implementation parameters of 00_scope.md R7, and the two free values of the machine (the random
byte and the schedule of events).
FONT_TABLE, the remaining parameter, stands beside the memory it fills, in Machine/Memory.lean. -/

namespace Sys2Proof

/-- `MEM_SIZE`: bytes of memory, addresses 0x000 to 0xFFF. -/
@[simp] abbrev Config.memSize : Nat := 4096

/-- `PROG_BASE`: first address of the loadable program. -/
@[simp] abbrev Config.progBase : Nat := 0x200

/-- `PROG_MAX`: largest program in bytes, `MEM_SIZE - PROG_BASE`. -/
@[simp] abbrev Config.progMax : Nat := 3584

/-- `FONT_BASE`: address of the font table. -/
@[simp] abbrev Config.fontBase : Nat := 0

/-- `FONT_BYTES`: size of the font table. -/
@[simp] abbrev Config.fontBytes : Nat := 80

/-- `GLYPH_BYTES`: bytes per font glyph; there are 16 glyphs. -/
@[simp] abbrev Config.glyphBytes : Nat := 5

/-- `STACK_DEPTH`: return addresses the call stack holds. -/
@[simp] abbrev Config.stackDepth : Nat := 16

/-- `FLAG_REG`: the general register that doubles as the flag, VF. -/
@[simp] abbrev Config.flagReg : Nibble := 15

/-- `ILEN`: bytes per instruction. -/
@[simp] abbrev Config.ilen : Nat := 2

/-- `TICK_HZ`: ticks per second of real time. No rule of the model depends on it, the model counts ticks
(70_reset_and_hazards.md R256). -/
@[simp] abbrev Config.tickHz : Nat := 60

/-- FREE VALUE (41_alu.md R156, 92_eei_decisions.md D21): the byte `random_byte()` of the draw with the given number. It
has no body, so no proof knows any of its values; every draw has a number of its own (`State.draws`), so no proof relates two
draws. DESIGN CHOICE of form, safe: notes/assumptions/7.md. -/
opaque Config.randomByte : Nat → Byte

/-- FREE VALUE (20_memory.md R80, R82, 92_eei_decisions.md D20): the event with the given number among those that arrive once no
event is listed. It has no body, so no proof knows which event comes: any number of ticks, key events, step requests, resets
and loads, in any order and without end. DESIGN CHOICE of form, safe: notes/assumptions/6.md. -/
opaque Config.hostEvent : Nat → Machine.Event

end Sys2Proof
end

