-- ==== Sys2Proof/Machine/State.lean ====
section
/-! DEFINITION. The state of the machine as plain data (10_state.md R20), the reasons a step stops (60_exceptions.md R201), and
the state right after initialise (10_state.md R47). -/

namespace Sys2Proof.Machine

/-- Memory: the cells whose byte differs from its reset contents, addresses strictly rising (`Memory.wf` in
Machine/Memory.lean). An unlisted address reads as its reset contents: notes/assumptions/5.md. -/
abbrev Memory := List Host.Cell

/-- The framebuffer, 32 rows of 64 pixels; row 0 and column 0 first (10_state.md R38). -/
abbrev Framebuffer := Vector (Vector Bool 64) 32

/-- The engine's activity (10_state.md R43): `run` normally, `waitKey` from the issue of LD Vx,K until a key press arrives.
It is no privilege level (60_exceptions.md R212). -/
inductive Mode where
  | run
  | waitKey
  deriving DecidableEq, Repr

/-- Which access an out-of-bounds report names (60_exceptions.md R201). -/
inductive Access where
  | fetch
  | read
  | write
  deriving DecidableEq, Repr

/-- The error kinds (60_exceptions.md R201). Each stops the run, which is SAFE: the block itself would report the error, change
nothing, and repeat the report at the next step request (R200, R210; notes/assumptions/10.md). -/
inductive Fault where
  /-- Raised by a step whose word is none of the 34 instructions (30_encoding.md R98, 60_exceptions.md R202), with the word and
  `pc`. Safe. -/
  | decodeFailure (word : Word) (addr : Word)
  /-- Raised by the fetch, DRW, LD B,Vx, LD [I],Vx and LD Vx,[I] when an address above 4095 would be accessed (60_exceptions.md
  R203), with the first offending address. Safe. -/
  | outOfBounds (addr : Nat) (access : Access)
  /-- Raised by CALL when 16 return addresses are stacked (60_exceptions.md R204). Safe. -/
  | stackOverflow
  /-- Raised by RET when the stack is empty (60_exceptions.md R205). Safe. -/
  | stackUnderflow
  /-- Raised by the host's loadProgram for an image above 3584 bytes, with its byte count (60_exceptions.md R206). Safe. -/
  | programLoadError (count : Nat)
  deriving DecidableEq, Repr

/-- Reasons to give an instruction no meaning. No instruction of this machine is refused. -/
inductive Refusal where
  /-- An instruction the model does not cover; raised by no arm of exec, since every instruction has its meaning. Safe. -/
  | notModelled (mnemonic : String)
  deriving DecidableEq, Repr

/-- The whole state (10_state.md R20), then the model's own four fields. -/
structure State where
  /-- `mem[0..4095]`, R40 to R42. -/
  mem : Memory
  /-- `x[0..15]`, V0 to VF, R21 to R24. -/
  regs : Vector Byte 16
  /-- The index register `I`, R30, R31. -/
  i : Word
  /-- The program counter, R25 to R28. -/
  pc : Word
  /-- `stack[1..16]`: slot `k` of the spec at index `k - 1`, R32, R34. -/
  stack : Vector Word 16
  /-- The stack pointer, 0 (empty) to 16 (full), R33. -/
  sp : Fin 17
  /-- The delay timer `DT`, R35. -/
  dt : Byte
  /-- The sound timer `ST`, R36. -/
  st : Byte
  /-- `fb[0..31][0..63]`, R38. -/
  fb : Framebuffer
  /-- `key[0..15]`, true is pressed, R39. -/
  keys : Vector Bool 16
  /-- The engine mode, R43. -/
  mode : Mode
  /-- The `X` field of the pending LD Vx,K, meaningful only while waiting, R43. -/
  waitX : Nibble
  /-- MODEL'S OWN: the output bit `draw_occurred` of the most recent step (60_exceptions.md R226); nothing reads it
  (notes/assumptions/9.md). -/
  drawOccurred : Bool
  /-- MODEL'S OWN: how many random bytes have been drawn, the number of the next draw (notes/assumptions/7.md). -/
  draws : Nat
  /-- MODEL'S OWN: the events listed to come next, oldest first (notes/assumptions/6.md). -/
  inputs : List Event
  /-- MODEL'S OWN: how many free events have arrived, the number of the next one (notes/assumptions/6.md). -/
  arrivals : Nat
  deriving DecidableEq, Repr

/-- The state right after initialise (10_state.md R47, 70_reset_and_hazards.md R240). Memory lists nothing: every byte is at its
reset contents, the font in 0..79 and 0 elsewhere. `pc` = 0x200 is the spec's decision D4 (UNVERIFIED,
notes/assumptions/3.md); `waitX` = 0 is a DESIGN CHOICE (notes/assumptions/4.md), and so are the model's own four fields
(notes/assumptions/8.md). -/
def State.reset : State where
  mem := []
  regs := Vector.replicate 16 0
  i := 0
  pc := 0x200
  stack := Vector.replicate 16 0
  sp := 0
  dt := 0
  st := 0
  fb := Vector.replicate 32 (Vector.replicate 64 false)
  keys := Vector.replicate 16 false
  mode := .run
  waitX := 0
  drawOccurred := false
  draws := 0
  inputs := []
  arrivals := 0

end Sys2Proof.Machine
end

