-- ==== Sys2Proof/Machine/Memory.lean ====
section
/-! DEFINITION. The memory array: its reset contents with the font table, reading and writing one byte, the canonical form,
and runs of bytes at ascending addresses (10_state.md R40 to R42, 20_memory.md R61 to R68). -/

namespace Sys2Proof.Machine

/-- `FONT_TABLE`: 16 glyphs of 5 bytes, the default of 10_state.md R42. PRESUMED, unsafe: the spec takes the bytes from
general knowledge (92_eei_decisions.md D3), notes/assumptions/2.md. -/
def fontTable : List Byte :=
  [0xF0, 0x90, 0x90, 0x90, 0xF0,  0x20, 0x60, 0x20, 0x20, 0x70,  0xF0, 0x10, 0xF0, 0x80, 0xF0,  0xF0, 0x10, 0xF0, 0x10, 0xF0] ++
  [0x90, 0x90, 0xF0, 0x10, 0x10,  0xF0, 0x80, 0xF0, 0x10, 0xF0,  0xF0, 0x80, 0xF0, 0x90, 0xF0,  0xF0, 0x10, 0x20, 0x40, 0x40] ++
  [0xF0, 0x90, 0xF0, 0x90, 0xF0,  0xF0, 0x90, 0xF0, 0x10, 0xF0,  0xF0, 0x90, 0xF0, 0x90, 0x90,  0xE0, 0x90, 0xE0, 0x90, 0xE0] ++
  [0xF0, 0x80, 0x80, 0x80, 0xF0,  0xE0, 0x90, 0x90, 0x90, 0xE0,  0xF0, 0x80, 0xF0, 0x80, 0xF0,  0xF0, 0x80, 0xF0, 0x80, 0x80]

/-- What an address holds after initialise: the font in 0..79, zero above (10_state.md R47). This is what an unlisted address
reads as. -/
def resetByte (a : Nat) : Byte := fontTable.getD a 0

/-- `mem[a]`. -/
def Memory.get : Memory → Nat → Byte
  | [], a => resetByte a
  | (b, v) :: m, a => if a = b then v else Memory.get m a

/-- A cell in front of `m`, left out where its byte is the reset contents, so that the form stays canonical. -/
def Memory.cons (a : Nat) (v : Byte) (m : Memory) : Memory := if v = resetByte a then m else (a, v) :: m

/-- `mem[a] <- v`, keeping the canonical form. -/
def Memory.set : Memory → Nat → Byte → Memory
  | [], a, v => Memory.cons a v []
  | (b, w) :: m, a, v =>
    if a < b then Memory.cons a v ((b, w) :: m)
    else if a = b then Memory.cons a v m
    else (b, w) :: Memory.set m a v

/-- Every address of the list is at least `lo` and below 4096, addresses strictly rise, and no entry holds the reset
contents of its address. -/
def Memory.wfFrom : Nat → Memory → Bool
  | _, [] => true
  | lo, (a, v) :: m => decide (lo ≤ a) && decide (a < Config.memSize) && decide (v ≠ resetByte a) && Memory.wfFrom (a + 1) m

/-- The canonical form: addresses strictly rising, inside memory, and no entry equal to what an unlisted address reads as. -/
def Memory.wf (m : Memory) : Bool := Memory.wfFrom 0 m

/-- `MemRead(addr, 1)` and, with `access = fetch`, one byte of the fetch: the bounds check, then the byte (20_memory.md R60,
R62). The address is an unbounded natural number, never reduced (R67). -/
def memRead (m : Memory) (addr : Nat) (access : Access) : Except Fault Byte :=
  if addr < Config.memSize then .ok (Memory.get m addr) else .error (.outOfBounds addr access)

/-- `CheckRange(base, count, access)`: the fault a multi-byte access reports before it changes anything, if its last address is
above 4095; the report names the first address that is out of range (42_index_memory.md R167). -/
def checkRange (base count : Nat) (access : Access) : Option Fault :=
  if 0 < count ∧ Config.memSize ≤ base + count - 1 then some (.outOfBounds (max base Config.memSize) access) else none

/-- The bytes at `base`, `base + 1`, ..., `base + count - 1`, lowest address first (20_memory.md R61). Used where the range has
been checked. -/
def loadBytes (m : Memory) (base count : Nat) : List Byte := (List.range count).map (fun k => Memory.get m (base + k))

/-- The bytes written to `base`, `base + 1`, ... in that order (20_memory.md R61). Used where the range has been checked. -/
def storeBytes (m : Memory) (base : Nat) : List Byte → Memory
  | [] => m
  | v :: vs => storeBytes (Memory.set m base v) (base + 1) vs

end Sys2Proof.Machine
end

