-- ==== Sys2Proof/Machine/Ops.lean ====
section
/-! DEFINITION. The named operations over the state: registers, program counter, call stack, timers, framebuffer and key latch.
An error of this machine transfers no control inside it: there is no handler, no saved register and no return from an error
(60_exceptions.md R209, R210), so raising one is `State.raise`, and there is no exception entry or return to model. -/

namespace Sys2Proof

/-- The low nibble `v[3:0]` of a byte (00_scope.md R9). -/
def lowNibble (v : Byte) : Nibble := v.extractLsb' 0 4

/-- The number 1 or 0 that a flag side effect writes into VF (10_state.md R29). -/
def flagByte (b : Bool) : Byte := if b then 1 else 0

end Sys2Proof

namespace Sys2Proof.Machine

/-- The outcome of an instruction or an event. -/
abbrev Result := Host.Outcome State Fault Refusal

/-- `raise E(info)`: the operation stops, none of its writes take effect, the report is presented (60_exceptions.md R200). The
state before it, unchanged, is the state after it, so the report is all there is. -/
def State.raise (_s : State) (f : Fault) : Result := .fault f

/-- `x[k]` (10_state.md R21). -/
def State.reg (s : State) (k : Nibble) : Byte := s.regs[k.toNat]'(k.isLt)

/-- `x[k] <- v` (10_state.md R23). -/
def State.setReg (s : State) (k : Nibble) (v : Byte) : State := { s with regs := s.regs.set k.toNat v k.isLt }

/-- `x[15] <- 1` or `x[15] <- 0`: the flag side effect (10_state.md R22, R29). -/
def State.setFlag (s : State) (b : Bool) : State := s.setReg Config.flagReg (flagByte b)

/-- `I <- v` (10_state.md R30). -/
def State.setIndex (s : State) (v : Word) : State := { s with i := v }

/-- `pc <- target`, unchecked (40_control_flow.md R122). -/
def State.jump (s : State) (target : Word) : State := { s with pc := target }

/-- "advance by 2", in 16 bits (00_scope.md R12). -/
def State.advance (s : State) : State := s.jump (s.pc + 2)

/-- The pc of a conditional skip: 4 if the test holds, else 2 (40_control_flow.md R129). -/
def State.skipIf (s : State) (test : Bool) : State := s.jump (s.pc + (if test then 4 else 2))

/-- `stack[k]` for `k` in 1..16 (10_state.md R32); the slots of the spec start at 1 (92_eei_decisions.md D22,
notes/assumptions/21.md). -/
def State.stackSlot (s : State) (k : Nat) : Word := s.stack.getD (k - 1) 0

/-- `Push(v)`: overflow at `sp = 16`, else increment, then write (10_state.md R34). -/
def State.push (s : State) (v : Word) : Except Fault State :=
  if h : s.sp.val < Config.stackDepth then
    .ok { s with sp := ⟨s.sp.val + 1, Nat.succ_lt_succ h⟩, stack := s.stack.set s.sp.val v h }
  else .error .stackOverflow

/-- `Pop()`: underflow at `sp = 0`, else read, then decrement; the slot keeps its value (10_state.md R34). -/
def State.pop (s : State) : Except Fault (Word × State) :=
  if s.sp.val = 0 then .error .stackUnderflow
  else .ok (s.stackSlot s.sp.val, { s with sp := ⟨s.sp.val - 1, Nat.lt_of_le_of_lt (Nat.sub_le _ _) s.sp.isLt⟩ })

/-- `DT <- v`, one atomic write of the whole counter (44_timers_input.md R196). -/
def State.setDelay (s : State) (v : Byte) : State := { s with dt := v }

/-- `ST <- v`, one atomic write of the whole counter (44_timers_input.md R197). -/
def State.setSound (s : State) (v : Byte) : State := { s with st := v }

/-- `key[k]` (10_state.md R39). -/
def State.key (s : State) (k : Nibble) : Bool := s.keys[k.toNat]'(k.isLt)

/-- `key[k] <- pressed` (10_state.md R39). -/
def State.setKey (s : State) (k : Nibble) (pressed : Bool) : State := { s with keys := s.keys.set k.toNat pressed k.isLt }

/-- `random_byte()`: the next free byte, a new one at each draw (41_alu.md R156; notes/assumptions/7.md). -/
def State.randomByte (s : State) : Byte := Config.randomByte s.draws

/-- The draw is used up: the next one has a new number. -/
def State.countDraw (s : State) : State := { s with draws := s.draws + 1 }

/-- `fb[row][col]` (10_state.md R38). -/
def Framebuffer.pixel (fb : Framebuffer) (row : Fin 32) (col : Fin 64) : Bool := fb[row][col]

/-- `fb[row][col] <- v` (10_state.md R38). -/
def Framebuffer.setPixel (fb : Framebuffer) (row : Fin 32) (col : Fin 64) (v : Bool) : Framebuffer :=
  fb.set row.val (fb[row].set col.val v)

/-- The blank framebuffer (43_display.md R181). -/
def Framebuffer.blank : Framebuffer := Vector.replicate 32 (Vector.replicate 64 false)

/-- A row coordinate, reduced modulo the 32 rows (43_display.md R182). -/
def wrapRow (n : Nat) : Fin 32 := ⟨n % 32, Nat.mod_lt n (by decide)⟩

/-- A column coordinate, reduced modulo the 64 columns (43_display.md R182). -/
def wrapCol (n : Nat) : Fin 64 := ⟨n % 64, Nat.mod_lt n (by decide)⟩

/-- One sprite bit, number `c` of byte `b` (0 is the leftmost, bit 7), in sprite row `r`: a 1 bit is XORed onto its pixel, whose
coordinates wrap one by one, and collides if the pixel was 1 (43_display.md R182). The pair is the framebuffer and
`collided`. -/
def drawBit (vx vy r : Nat) (b : Byte) (acc : Framebuffer × Bool) (c : Nat) : Framebuffer × Bool :=
  if b.getLsbD (7 - c) then
    let col := wrapCol (vx + c)
    let row := wrapRow (vy + r)
    let old := acc.1.pixel row col
    (acc.1.setPixel row col (!old), acc.2 || old)
  else acc

/-- The eight bits of a sprite byte, leftmost first (43_display.md R182). -/
def drawRow (vx vy r : Nat) (b : Byte) (acc : Framebuffer × Bool) : Framebuffer × Bool :=
  (List.range 8).foldl (drawBit vx vy r b) acc

/-- The sprite rows from row `r` on, top row first (43_display.md R182). -/
def drawRows (vx vy : Nat) : Nat → List Byte → Framebuffer × Bool → Framebuffer × Bool
  | _, [], acc => acc
  | r, b :: bs, acc => drawRows vx vy (r + 1) bs (drawRow vx vy r b acc)

/-- `drawSprite(x, y, bytes) -> collided`: the new framebuffer and whether any XOR turned a set pixel off (43_display.md R180,
R182). -/
def drawSprite (fb : Framebuffer) (vx vy : Nat) (bytes : List Byte) : Framebuffer × Bool :=
  drawRows vx vy 0 bytes (fb, false)

end Sys2Proof.Machine
end

