-- ==== Sys2Proof/Machine/Operands.lean ====
section
/-! DEFINITION. The operand forms. Immediates are used as extracted and zero-extended into 16-bit registers (30_encoding.md
R94); the one data addressing mode is `I` plus an ascending offset, an unbounded natural number (42_index_memory.md R160,
20_memory.md R67); VX selects a key or a hexadecimal digit by its low nibble (44_timers_input.md R190, 42_index_memory.md
R163). -/

namespace Sys2Proof.Machine

/-- `zext_16(NNN)` (30_encoding.md R94). -/
def addrWord (nnn : Addr12) : Word := nnn.setWidth 16

/-- `zext_16(v)` of a register value (40_control_flow.md R130, 42_index_memory.md R162). -/
def byteWord (v : Byte) : Word := v.setWidth 16

/-- `zext_8(k)` of a key number (44_timers_input.md R195). -/
def keyByte (k : Nibble) : Byte := k.setWidth 8

/-- The base of every data access: `I` as an unbounded natural number (42_index_memory.md R160). -/
def State.indexBase (s : State) : Nat := s.i.toNat

/-- The key a key-test skip tests: VX masked to 0..15 (44_timers_input.md R190). -/
def State.keyOf (s : State) (x : Nibble) : Nibble := lowNibble (s.reg x)

/-- The address of the font glyph of the digit in VX's low nibble: 5 times the digit (42_index_memory.md R163; low nibble by
92_eei_decisions.md D13, UNVERIFIED, notes/assumptions/16.md). -/
def fontAddress (v : Byte) : Word := BitVec.ofNat 16 (Config.fontBase + Config.glyphBytes * (lowNibble v).toNat)

/-- The three decimal digits of a byte: hundreds, tens, ones (42_index_memory.md R164). -/
def bcdDigits (v : Byte) : List Byte :=
  [BitVec.ofNat 8 (v.toNat / 100), BitVec.ofNat 8 (v.toNat / 10 % 10), BitVec.ofNat 8 (v.toNat % 10)]

/-- The number of registers V0..VX: `X + 1` (42_index_memory.md R165, R166). -/
def regCount (x : Nibble) : Nat := x.toNat + 1

/-- The values of V0..VX, V0 first (42_index_memory.md R165). -/
def State.regsUpTo (s : State) (x : Nibble) : List Byte := s.regs.toList.take (regCount x)

/-- `x[k], x[k+1], ... <- vs`, ascending, no further than VF (42_index_memory.md R166). -/
def setRegsFrom (regs : Vector Byte 16) : Nat → List Byte → Vector Byte 16
  | _, [] => regs
  | k, v :: vs => setRegsFrom (regs.setIfInBounds k v) (k + 1) vs

end Sys2Proof.Machine
end

