-- ==== Sys2Proof/Machine/Flags.lean ====
section
/-! DEFINITION. The flag computations and the order in which a flag and a result are written. The machine has one flag, VF
(10_state.md R29); arithmetic is exact and narrowed at the end (41_alu.md R147). -/

namespace Sys2Proof.Machine

/-- The sum in a wider than 8-bit domain, 0..510 (41_alu.md R148). -/
def wideSum (a b : Byte) : Nat := a.toNat + b.toNat

/-- The add flag: the unmasked sum exceeds 255 (41_alu.md R147, R148). -/
def addFlag (a b : Byte) : Bool := decide (255 < wideSum a b)

/-- The stored sum, modulo 256 (41_alu.md R147). -/
def addResult (a b : Byte) : Byte := BitVec.ofNat 8 (wideSum a b)

/-- The subtract flag: the minuend strictly exceeds the subtrahend (41_alu.md R147, 90_conflicts.md C3). -/
def subFlag (minuend subtrahend : Byte) : Bool := decide (subtrahend.toNat < minuend.toNat)

/-- The stored difference, modulo 256 (41_alu.md R147). -/
def subResult (minuend subtrahend : Byte) : Byte := minuend - subtrahend

/-- The flag of SHR: bit 0 before the shift (41_alu.md R150). -/
def shrFlag (v : Byte) : Bool := v.getLsbD 0

/-- The result of SHR: the value divided by 2 (41_alu.md R150). -/
def shrResult (v : Byte) : Byte := BitVec.ofNat 8 (v.toNat / 2)

/-- The flag of SHL: bit 7 before the shift (41_alu.md R152). -/
def shlFlag (v : Byte) : Bool := v.getLsbD 7

/-- The result of SHL: the value doubled, modulo 256 (41_alu.md R152). -/
def shlResult (v : Byte) : Byte := BitVec.ofNat 8 (2 * v.toNat)

/-- VF is written first and VX second, so with `X = 15` the result stays and the flag is lost (41_alu.md R140). UNVERIFIED,
unsafe: the order is the spec's reading (92_eei_decisions.md D7), notes/assumptions/12.md. -/
def State.setFlagged (s : State) (x : Nibble) (flag : Bool) (result : Byte) : State := (s.setFlag flag).setReg x result

end Sys2Proof.Machine
end

