-- ==== Sys2Proof/Machine/Alu.lean ====
section
/-! DEFINITION. The meanings of the load, arithmetic, logic, shift and random instructions (41_alu.md R140 to R156). Each reads
its registers once, before any write (00_scope.md R11), and ends with an advance by 2. -/

namespace Sys2Proof.Machine

/-- LD Vx,kk (41_alu.md R141). -/
def execLdVxKk (x : Nibble) (kk : Byte) (s : State) : Result := .next (s.setReg x kk).advance

/-- ADD Vx,kk: no flag (41_alu.md R142). -/
def execAddVxKk (x : Nibble) (kk : Byte) (s : State) : Result := .next (s.setReg x (addResult (s.reg x) kk)).advance

/-- LD Vx,Vy (41_alu.md R143). -/
def execLdVxVy (x y : Nibble) (s : State) : Result := .next (s.setReg x (s.reg y)).advance

/-- OR Vx,Vy: no flag (41_alu.md R144). -/
def execOrVxVy (x y : Nibble) (s : State) : Result := .next (s.setReg x (s.reg x ||| s.reg y)).advance

/-- AND Vx,Vy: no flag (41_alu.md R145). -/
def execAndVxVy (x y : Nibble) (s : State) : Result := .next (s.setReg x (s.reg x &&& s.reg y)).advance

/-- XOR Vx,Vy: no flag (41_alu.md R146). -/
def execXorVxVy (x y : Nibble) (s : State) : Result := .next (s.setReg x (s.reg x ^^^ s.reg y)).advance

/-- ADD Vx,Vy (41_alu.md R148). -/
def execAddVxVy (x y : Nibble) (s : State) : Result :=
  .next (s.setFlagged x (addFlag (s.reg x) (s.reg y)) (addResult (s.reg x) (s.reg y))).advance

/-- SUB Vx,Vy: the minuend is VX (41_alu.md R149). -/
def execSubVxVy (x y : Nibble) (s : State) : Result :=
  .next (s.setFlagged x (subFlag (s.reg x) (s.reg y)) (subResult (s.reg x) (s.reg y))).advance

/-- SHR Vx: `Y` is ignored (41_alu.md R150, 30_encoding.md R100). -/
def execShrVx (x _y : Nibble) (s : State) : Result :=
  .next (s.setFlagged x (shrFlag (s.reg x)) (shrResult (s.reg x))).advance

/-- SUBN Vx,Vy: the minuend is VY (41_alu.md R151). -/
def execSubnVxVy (x y : Nibble) (s : State) : Result :=
  .next (s.setFlagged x (subFlag (s.reg y) (s.reg x)) (subResult (s.reg y) (s.reg x))).advance

/-- SHL Vx: `Y` is ignored (41_alu.md R152, 30_encoding.md R100). -/
def execShlVx (x _y : Nibble) (s : State) : Result :=
  .next (s.setFlagged x (shlFlag (s.reg x)) (shlResult (s.reg x))).advance

/-- RND Vx,kk: a free byte ANDed with the immediate (41_alu.md R156). -/
def execRndVxKk (x : Nibble) (kk : Byte) (s : State) : Result := .next (s.setReg x (s.randomByte &&& kk)).countDraw.advance

end Sys2Proof.Machine
end

