-- ==== Sys2Proof/Machine/Control.lean ====
section
/-! DEFINITION. The meanings of the control-transfer instructions (40_control_flow.md R121 to R130). -/

namespace Sys2Proof.Machine

/-- RET: pop into `pc`, then advance by 2 (40_control_flow.md R121); underflow on an empty stack (60_exceptions.md R205). -/
def execRet (s : State) : Result :=
  match s.pop with
  | .ok (v, s') => .next (s'.jump (v + 2))
  | .error f => s.raise f

/-- JP nnn (40_control_flow.md R123). -/
def execJpNnn (nnn : Addr12) (s : State) : Result := .next (s.jump (addrWord nnn))

/-- CALL nnn: push the address of this CALL, then jump (40_control_flow.md R124); overflow at depth 16 (60_exceptions.md
R204). -/
def execCallNnn (nnn : Addr12) (s : State) : Result :=
  match s.push s.pc with
  | .ok s' => .next (s'.jump (addrWord nnn))
  | .error f => s.raise f

/-- SE Vx,kk (40_control_flow.md R125). -/
def execSeVxKk (x : Nibble) (kk : Byte) (s : State) : Result := .next (s.skipIf (s.reg x == kk))

/-- SNE Vx,kk (40_control_flow.md R126). -/
def execSneVxKk (x : Nibble) (kk : Byte) (s : State) : Result := .next (s.skipIf (s.reg x != kk))

/-- SE Vx,Vy (40_control_flow.md R127). -/
def execSeVxVy (x y : Nibble) (s : State) : Result := .next (s.skipIf (s.reg x == s.reg y))

/-- SNE Vx,Vy (40_control_flow.md R128). -/
def execSneVxVy (x y : Nibble) (s : State) : Result := .next (s.skipIf (s.reg x != s.reg y))

/-- JP V0,nnn: the 16-bit sum of the address field and V0, not masked (40_control_flow.md R130). -/
def execJpV0Nnn (nnn : Addr12) (s : State) : Result := .next (s.jump (addrWord nnn + byteWord (s.reg 0)))

end Sys2Proof.Machine
end

