-- ==== Sys2Proof/Machine/Device.lean ====
section
/-! DEFINITION. The meanings of the timer and key instructions (44_timers_input.md R190 to R197). The completion of LD Vx,K is a
host event, in Machine/Events.lean. -/

namespace Sys2Proof.Machine

/-- SKP Vx (44_timers_input.md R190). -/
def execSkpVx (x : Nibble) (s : State) : Result := .next (s.skipIf (s.key (s.keyOf x)))

/-- SKNP Vx (44_timers_input.md R191). -/
def execSknpVx (x : Nibble) (s : State) : Result := .next (s.skipIf (!s.key (s.keyOf x)))

/-- LD Vx,DT (44_timers_input.md R192). -/
def execLdVxDt (x : Nibble) (s : State) : Result := .next (s.setReg x s.dt).advance

/-- LD Vx,K, the issue: remember `X` and wait; `pc` stays at this instruction (44_timers_input.md R193). -/
def execLdVxK (x : Nibble) (s : State) : Result := .next { s with waitX := x, mode := .waitKey }

/-- LD DT,Vx (44_timers_input.md R196). -/
def execLdDtVx (x : Nibble) (s : State) : Result := .next (s.setDelay (s.reg x)).advance

/-- LD ST,Vx (44_timers_input.md R197). -/
def execLdStVx (x : Nibble) (s : State) : Result := .next (s.setSound (s.reg x)).advance

end Sys2Proof.Machine
end

