-- ==== Sys2Proof/Machine/Display.lean ====
section
/-! DEFINITION. The meanings of the display instructions (43_display.md R181, R182). -/

namespace Sys2Proof.Machine

/-- CLS: every pixel 0; VF and `draw_occurred` are not written (43_display.md R181). -/
def execCls (s : State) : Result := .next { s with fb := Framebuffer.blank }.advance

/-- DRW Vx,Vy,n: check the sprite's range, XOR it in, VF <- collided, draw_occurred <- 1 (43_display.md R182). With `n = 0`
nothing is read or drawn, and VF becomes 0 (92_eei_decisions.md D19, notes/assumptions/24.md). -/
def execDrwVxVyN (x y n : Nibble) (s : State) : Result :=
  match checkRange s.indexBase n.toNat .read with
  | some f => s.raise f
  | none =>
    let drawn := drawSprite s.fb (s.reg x).toNat (s.reg y).toNat (loadBytes s.mem s.indexBase n.toNat)
    .next ({ s with fb := drawn.1, drawOccurred := true }.setFlag drawn.2).advance

end Sys2Proof.Machine
end

