-- ==== Sys2Proof/Machine/Index.lean ====
section
/-! DEFINITION. The meanings of the index register and memory instructions (42_index_memory.md R160 to R167). The memory
instructions check their whole range before they change anything (R167, 20_memory.md R69) and leave `I` as it was (R160). -/

namespace Sys2Proof.Machine

/-- LD I,nnn (42_index_memory.md R161). -/
def execLdINnn (nnn : Addr12) (s : State) : Result := .next (s.setIndex (addrWord nnn)).advance

/-- ADD I,Vx: modulo 65536, no flag (42_index_memory.md R162). -/
def execAddIVx (x : Nibble) (s : State) : Result := .next (s.setIndex (s.i + byteWord (s.reg x))).advance

/-- LD F,Vx (42_index_memory.md R163). -/
def execLdFVx (x : Nibble) (s : State) : Result := .next (s.setIndex (fontAddress (s.reg x))).advance

/-- The store at `I`, shared by LD B,Vx and LD [I],Vx: check the range, then write the bytes upward (42_index_memory.md R164,
R165, R167). -/
def State.storeAtIndex (s : State) (bytes : List Byte) : Result :=
  match checkRange s.indexBase bytes.length .write with
  | some f => s.raise f
  | none => .next { s with mem := storeBytes s.mem s.indexBase bytes }.advance

/-- LD B,Vx: hundreds, tens, ones (42_index_memory.md R164). -/
def execLdBVx (x : Nibble) (s : State) : Result := s.storeAtIndex (bcdDigits (s.reg x))

/-- LD [I],Vx: V0 to VX (42_index_memory.md R165). -/
def execLdMemVx (x : Nibble) (s : State) : Result := s.storeAtIndex (s.regsUpTo x)

/-- LD Vx,[I]: V0 to VX (42_index_memory.md R166). -/
def execLdVxMem (x : Nibble) (s : State) : Result :=
  match checkRange s.indexBase (regCount x) .read with
  | some f => s.raise f
  | none => .next { s with regs := setRegsFrom s.regs 0 (loadBytes s.mem s.indexBase (regCount x)) }.advance

end Sys2Proof.Machine
end

