-- ==== Sys2Proof/Machine/Events.lean ====
section
/-! DEFINITION. The host events other than a step request (60_exceptions.md R216, R221, R222, R224), each one atomic change of
the state. -/

namespace Sys2Proof.Machine

/-- A counter after one tick: decremented if nonzero, floor at 0 (10_state.md R37). -/
def decrement (v : Byte) : Byte := if v = 0 then 0 else v - 1

/-- `Tick()`: both counters in one event (10_state.md R37, 20_memory.md R79; one event by 92_eei_decisions.md D20,
notes/assumptions/20.md). -/
def tick (s : State) : State := { s with dt := decrement s.dt, st := decrement s.st }

/-- The completion of LD Vx,K by the press of key `k` (44_timers_input.md R195). `wait_x` keeps its value, which means nothing
in `RUN` (notes/assumptions/26.md). -/
def completeWait (k : Nibble) (s : State) : State :=
  { ((s.setKey k true).setReg s.waitX (keyByte k)).advance with mode := .run }

/-- `setKey(k, pressed)` (60_exceptions.md R224): the latch takes the value; while waiting, the press of a released key completes
LD Vx,K, and nothing else does (44_timers_input.md R195, R198; edge reading by 92_eei_decisions.md D16, UNVERIFIED,
notes/assumptions/18.md). -/
def setKeyEvent (k : Nibble) (pressed : Bool) (s : State) : State :=
  match s.mode with
  | .run => s.setKey k pressed
  | .waitKey => if pressed = true ∧ s.key k = false then completeWait k s else s.setKey k pressed

/-- `Initialise()` (70_reset_and_hazards.md R240): the reset state. The model's own list of coming events goes on, and so do
its counts of free draws and of free events, so that no two of a kind share a number (notes/assumptions/22.md). -/
def initialise (s : State) : State := { State.reset with draws := s.draws, inputs := s.inputs, arrivals := s.arrivals }

/-- `LoadProgram(bytes)` (60_exceptions.md R222): an oversized image is reported before anything changes (R206), else the bytes
go to 0x200 upward and nothing else changes. -/
def loadProgram (bytes : List Byte) (s : State) : Result :=
  if Config.progMax < bytes.length then s.raise (.programLoadError bytes.length)
  else .next { s with mem := storeBytes s.mem Config.progBase bytes }

end Sys2Proof.Machine
end

