-- ==== Sys2Proof/Machine/Engine.lean ====
section
/-! DEFINITION. One step of the engine (40_control_flow.md R120) and one event of the host (20_memory.md R78). -/

namespace Sys2Proof.Machine

/-- `Fetch()`: the big-endian word at `pc` and `pc + 1`, each address checked, the first one first, without any wrap
(20_memory.md R60, R67). -/
def fetch (s : State) : Except Fault Word :=
  match memRead s.mem s.pc.toNat .fetch with
  | .error f => .error f
  | .ok hi =>
    match memRead s.mem (s.pc.toNat + 1) .fetch with
    | .error f => .error f
    | .ok lo => .ok (wordOfBytes hi lo)

/-- `Step()` on a step request: fetch, decode, execute, or report the first error met (40_control_flow.md R120, 60_exceptions.md
R207). `draw_occurred` is cleared first. While the engine waits for a key the request is not accepted and nothing changes
(44_timers_input.md R194, R198; notes/assumptions/19.md). -/
def engineStep (s : State) : Result :=
  match s.mode with
  | .waitKey => .next s
  | .run =>
    match fetch s with
    | .error f => s.raise f
    | .ok w =>
      match decodeWord w with
      | none => s.raise (.decodeFailure w s.pc)
      | some i => exec i { s with drawOccurred := false }

/-- One event of the host or the clock, applied to the state it finds (20_memory.md R76, R78). -/
def applyEvent (e : Event) (s : State) : Result :=
  match e with
  | .stepRequest => engineStep s
  | .tick => .next (tick s)
  | .setKey k pressed => .next (setKeyEvent k pressed s)
  | .initialise => .next (initialise s)
  | .loadProgram bytes => loadProgram bytes s

/-- The event that comes next: the oldest one listed; when none is listed, a free one, a tick or any other, since no rule
constrains the schedule (20_memory.md R80, R82; notes/assumptions/6.md). -/
def nextEvent (s : State) : Event :=
  match s.inputs with
  | [] => Config.hostEvent s.arrivals
  | e :: _ => e

/-- The state with its next event used up: off the list, or counted, so that each free event has a number of its own. -/
def consumeEvent (s : State) : State :=
  match s.inputs with
  | [] => { s with arrivals := s.arrivals + 1 }
  | _ :: es => { s with inputs := es }

/-- The bytes of a word stored where `pc` points, high byte first (20_memory.md R60). -/
def storeWordAtPc (s : State) (w : Word) : State :=
  { s with mem := storeBytes s.mem s.pc.toNat [highByte w, lowByte w] }

/-- A state whose next event is a step request that the engine accepts and whose `pc` can be fetched from. -/
def readyToFetch (s : State) : State :=
  { s with
    mode := .run
    pc := if s.pc.toNat + 1 < Config.memSize then s.pc else State.reset.pc
    inputs := .stepRequest :: s.inputs }

end Sys2Proof.Machine
end

