-- ==== Sys2Proof/Machine/Step.lean ====
section
/-! DEFINITION. One step of the model: the next event of the host (notes/assumptions/6.md). -/

namespace Sys2Proof.Machine

/-- The next event is used up and applied. -/
def step (s : State) : Host.Outcome State Fault Refusal := applyEvent (nextEvent s) (consumeEvent s)

/-- `s` with the instruction word `w` (its bits `nbits` and above taken as 0) stored where the next step fetches
(notes/assumptions/23.md). -/
def State.withFetchWord (s : State) (nbits w : Nat) : State := storeWordAtPc (readyToFetch s) (tableWord nbits w)

end Sys2Proof.Machine
end

