-- ==== Sys2Proof/Machine/Outputs.lean ====
section
/-! DEFINITION. What the block shows the host at an event boundary (60_exceptions.md R225 to R228, 20_memory.md R86). Reading
changes nothing. -/

namespace Sys2Proof.Machine

/-- `snapshot()`: the host reads all 2048 pixels (60_exceptions.md R225). -/
def State.snapshot (s : State) : Framebuffer := s.fb

/-- `getDelay()` (60_exceptions.md R227). -/
def State.getDelay (s : State) : Byte := s.dt

/-- `getSound()` (60_exceptions.md R227). -/
def State.getSound (s : State) : Byte := s.st

/-- `sound_active`: 1 exactly while `ST != 0` (60_exceptions.md R227, 10_state.md R36). -/
def State.soundActive (s : State) : Bool := s.st != 0

/-- The code of an error report (60_exceptions.md R201); the numbers are the spec's own and carry no meaning
(92_eei_decisions.md D9). -/
def Fault.code : Fault → Nat
  | .decodeFailure _ _ => 1
  | .outOfBounds _ _ => 2
  | .stackOverflow => 3
  | .stackUnderflow => 4
  | .programLoadError _ => 5

end Sys2Proof.Machine
end

