-- ==== Sys2Proof/Safety.lean ====
section
/-! DEFINITION. What counts as a safe run: the invariant of the reachable states, when an instruction completes
(70_reset_and_hazards.md R251), and the convention for a finished program (R257). -/

namespace Sys2Proof.Machine

/-- What every reachable state satisfies. Memory is in its canonical form; `pc` is at most 0x10FE (10_state.md R28); every stack
slot holds an address an instruction was fetched from, at most 0xFFE (40_control_flow.md R121); while the engine waits, `pc` is
such an address too (44_timers_input.md R193). -/
structure State.Inv (s : State) : Prop where
  mem_wf : s.mem.wf = true
  pc_le : s.pc.toNat ≤ 0x10FE
  stack_le : ∀ k, (h : k < 16) → s.stack[k].toNat ≤ 0xFFE
  wait_pc_le : s.mode = .waitKey → s.pc.toNat ≤ 0xFFE

/-- The fault an instruction raises in a state, if any: CALL on a full stack, RET on an empty one, and the range check of the
memory instructions (60_exceptions.md R203 to R205, 70_reset_and_hazards.md R251). -/
def faultOf (i : Instr) (s : State) : Option Fault :=
  match i with
  | .ret => if s.sp.val = 0 then some .stackUnderflow else none
  | .callNnn _ => if s.sp.val = 16 then some .stackOverflow else none
  | .drwVxVyN _ _ n =>
    if 0 < n.toNat ∧ 4095 < s.i.toNat + n.toNat - 1 then some (.outOfBounds (max s.i.toNat 4096) .read) else none
  | .ldBVx _ => if 4095 < s.i.toNat + 2 then some (.outOfBounds (max s.i.toNat 4096) .write) else none
  | .ldMemVx x => if 4095 < s.i.toNat + x.toNat then some (.outOfBounds (max s.i.toNat 4096) .write) else none
  | .ldVxMem x => if 4095 < s.i.toNat + x.toNat then some (.outOfBounds (max s.i.toNat 4096) .read) else none
  | .cls | .jpNnn _ | .seVxKk _ _ | .sneVxKk _ _ | .seVxVy _ _ | .ldVxKk _ _ | .addVxKk _ _ | .ldVxVy _ _ | .orVxVy _ _
  | .andVxVy _ _ | .xorVxVy _ _ | .addVxVy _ _ | .subVxVy _ _ | .shrVx _ _ | .subnVxVy _ _ | .shlVx _ _ | .sneVxVy _ _
  | .ldINnn _ | .jpV0Nnn _ | .rndVxKk _ _ | .skpVx _ | .sknpVx _ | .ldVxDt _ | .ldVxK _ | .ldDtVx _ | .ldStVx _ | .addIVx _
  | .ldFVx _ => none

/-- A run that meets no error for `k` steps from `s` is safe (60_exceptions.md R210). -/
def safeFor (k : Nat) (s : State) : Prop := ∃ t, Host.Core.run
  { State := State, Fault := Fault, Refusal := Refusal, step := step, reset := State.reset } k s = .next t

/-- A program has finished when it sits on a jump to itself in `RUN` (70_reset_and_hazards.md R257, a convention of the spec,
92_eei_decisions.md D29). -/
def State.finished (s : State) : Prop :=
  s.mode = .run ∧ ∃ w nnn, fetch s = .ok w ∧ decodeWord w = some (.jpNnn nnn) ∧ addrWord nnn = s.pc

end Sys2Proof.Machine
end

