-- ==== Sys2Proof/Certificates/Slice0/Obligations.lean ====
section
/-! DEFINITION. The statements for the provers, from the numbered rules of spec/. Where a statement rests on a decision of the
spec itself (marked there as a decision) or on an entry of the assumption log, its docstring says so. -/

namespace Sys2Proof.Machine

/-- Frame: nothing but `pc` differs, and every byte of memory reads as before. -/
def OnlyPc (s t : State) : Prop :=
  t = { s with pc := t.pc } ∧ ∀ a, Memory.get t.mem a = Memory.get s.mem a

/-- Frame: nothing but general registers and `pc` differs, and every byte of memory reads as before. -/
def OnlyRegsPc (s t : State) : Prop :=
  t = { s with regs := t.regs, pc := t.pc } ∧ ∀ a, Memory.get t.mem a = Memory.get s.mem a

/-- Frame: nothing but `I` and `pc` differs, and every byte of memory reads as before. -/
def OnlyIndexPc (s t : State) : Prop :=
  t = { s with i := t.i, pc := t.pc } ∧ ∀ a, Memory.get t.mem a = Memory.get s.mem a

/-- Frame: nothing but `pc` and the `n` bytes of memory from `base` on differs. -/
def OnlyStoredPc (base n : Nat) (s t : State) : Prop :=
  t = { s with mem := t.mem, pc := t.pc } ∧ ∀ a, a < base ∨ base + n ≤ a → Memory.get t.mem a = Memory.get s.mem a

/-- Bit `c` of sprite row `r` covers the cell: the byte at `I + r` has a 1 there, and the wrapped coordinates are the cell's
(43_display.md R182). -/
def Covers (x y n : Nibble) (s : State) (row : Fin 32) (col : Fin 64) : Prop :=
  ∃ r c, r < n.toNat ∧ c < 8 ∧ (Memory.get s.mem (s.i.toNat + r)).getLsbD (7 - c) = true ∧
    row.val = ((s.reg y).toNat + r) % 32 ∧ col.val = ((s.reg x).toNat + c) % 64

/-- The sprite at `I` can be read: it has no rows, or its last byte is inside memory (43_display.md R182). -/
def SpriteInside (n : Nibble) (s : State) : Prop := n = 0 ∨ s.i.toNat + n.toNat ≤ 4096

/-- CALL instructions one after another, each in the state the one before left. -/
def callAll : List Addr12 → State → Result
  | [], s => .next s
  | nnn :: rest, s =>
    match exec (.callNnn nnn) s with
    | .next t => callAll rest t
    | .fault f => .fault f
    | .refused r => .refused r

/-- `n` ticks one after another. -/
def ticks : Nat → State → State
  | 0, s => s
  | n + 1, s => ticks n (tick s)

/-- The registers an instruction may write: its destination, V0..VX for the block load, and VF for the flag writers (10_state.md
R24, R29). -/
def MayWrite (i : Instr) (j : Nibble) : Prop :=
  match i with
  | .ldVxKk x _ | .addVxKk x _ | .ldVxVy x _ | .orVxVy x _ | .andVxVy x _ | .xorVxVy x _ | .rndVxKk x _ | .ldVxDt x => j = x
  | .addVxVy x _ | .subVxVy x _ | .shrVx x _ | .subnVxVy x _ | .shlVx x _ => j = x ∨ j = 15
  | .drwVxVyN _ _ _ => j = 15
  | .ldVxMem x => j.toNat ≤ x.toNat
  | .cls | .ret | .jpNnn _ | .callNnn _ | .seVxKk _ _ | .sneVxKk _ _ | .seVxVy _ _ | .sneVxVy _ _ | .ldINnn _ | .jpV0Nnn _
  | .skpVx _ | .sknpVx _ | .ldVxK _ | .ldDtVx _ | .ldStVx _ | .addIVx _ | .ldFVx _ | .ldBVx _ | .ldMemVx _ => False

/-- The instructions that are not sequential: jumps, call, return, skips and the key wait (10_state.md R26). -/
def transfersControl : Instr → Bool
  | .ret | .jpNnn _ | .callNnn _ | .seVxKk _ _ | .sneVxKk _ _ | .seVxVy _ _ | .sneVxVy _ _ | .jpV0Nnn _ | .skpVx _ | .sknpVx _
  | .ldVxK _ => true
  | .cls | .ldVxKk _ _ | .addVxKk _ _ | .ldVxVy _ _ | .orVxVy _ _ | .andVxVy _ _ | .xorVxVy _ _ | .addVxVy _ _ | .subVxVy _ _
  | .shrVx _ _ | .subnVxVy _ _ | .shlVx _ _ | .ldINnn _ | .rndVxKk _ _ | .drwVxVyN _ _ _ | .ldVxDt _ | .ldDtVx _ | .ldStVx _
  | .addIVx _ | .ldFVx _ | .ldBVx _ | .ldMemVx _ | .ldVxMem _ => false

/-- The three instructions that touch a timer (20_memory.md R81). -/
def touchesTimer : Instr → Bool
  | .ldVxDt _ | .ldDtVx _ | .ldStVx _ => true
  | .cls | .ret | .jpNnn _ | .callNnn _ | .seVxKk _ _ | .sneVxKk _ _ | .seVxVy _ _ | .ldVxKk _ _ | .addVxKk _ _ | .ldVxVy _ _
  | .orVxVy _ _ | .andVxVy _ _ | .xorVxVy _ _ | .addVxVy _ _ | .subVxVy _ _ | .shrVx _ _ | .subnVxVy _ _ | .shlVx _ _
  | .sneVxVy _ _ | .ldINnn _ | .jpV0Nnn _ | .rndVxKk _ _ | .drwVxVyN _ _ _ | .skpVx _ | .sknpVx _ | .ldVxK _ | .addIVx _
  | .ldFVx _ | .ldBVx _ | .ldMemVx _ | .ldVxMem _ => false

/-- Two outcomes that differ at most in the output bit `draw_occurred`. -/
def SameButDrawOutput (a b : Result) : Prop :=
  match a, b with
  | .next s, .next t => { s with drawOccurred := false } = { t with drawOccurred := false }
  | .fault f, .fault g => f = g
  | .refused p, .refused q => p = q
  | _, _ => False

end Sys2Proof.Machine

open Sys2Proof Sys2Proof.Machine

/-! ## Encoding -/

/-- Decode of encode, for every instruction and every operand, as a word, as bytes, and as a table word (30_encoding.md R90, R93,
R96). The opcode numbers are notes/assumptions/1.md (PRESUMED by the spec itself, R97). -/
def Obligations.DecodeOfEncodeIsTheInstruction : Prop :=
  ∀ i : Instr, decodeWord (encode i) = some i ∧ (∀ rest, decode (encodeBytes i ++ rest) = .ok (i, rest)) ∧
    decodeTableWord 16 (encode i).toNat = some i

/-- Encode of decode: every legal word is the word of the one instruction it decodes to, so no bit of it is dropped
(30_encoding.md R93, R96, R100). Numbers: notes/assumptions/1.md. -/
def Obligations.EncodeOfDecodeIsTheWord : Prop :=
  ∀ (w : Word) (i : Instr), decodeWord w = some i → encode i = w

/-- The decode tree of 30_encoding.md R93 and the match and mask columns of R96 say the same of every word, and the rows are
mutually exclusive. Numbers: notes/assumptions/1.md. -/
def Obligations.DecodeTreeAgreesWithTable : Prop :=
  (∀ (w : Word) (name : String), (∃ i, decodeWord w = some i ∧ i.mnemonic = name) ↔
    ∃ m k, (name, m, k) ∈ opcodeTable ∧ w &&& k = m) ∧
  (∀ (w : Word), ∀ r ∈ opcodeTable, ∀ r' ∈ opcodeTable, w &&& r.2.2 = r.2.1 → w &&& r'.2.2 = r'.2.1 → r = r')

/-- The illegal words, group by group (30_encoding.md R98, without its counts). Numbers: notes/assumptions/1.md. -/
def Obligations.IllegalWordsAreExactlyTheListed : Prop :=
  ∀ w : Word, decodeWord w = none ↔
    ((Fields.ofWord w).op = 0x0 ∧ (Fields.ofWord w).nnn ≠ 0x0E0 ∧ (Fields.ofWord w).nnn ≠ 0x0EE) ∨
    ((Fields.ofWord w).op = 0x5 ∧ (Fields.ofWord w).n ≠ 0) ∨
    ((Fields.ofWord w).op = 0x8 ∧ (Fields.ofWord w).n ∈ ([0x8, 0x9, 0xA, 0xB, 0xC, 0xD, 0xF] : List Nibble)) ∨
    ((Fields.ofWord w).op = 0x9 ∧ (Fields.ofWord w).n ≠ 0) ∨
    ((Fields.ofWord w).op = 0xE ∧ (Fields.ofWord w).kk ≠ 0x9E ∧ (Fields.ofWord w).kk ≠ 0xA1) ∨
    ((Fields.ofWord w).op = 0xF ∧
      (Fields.ofWord w).kk ∉ ([0x07, 0x0A, 0x15, 0x18, 0x1E, 0x29, 0x33, 0x55, 0x65] : List Byte))

/-- A few words written out from the pattern column of 30_encoding.md R96, one or two per family, and two illegal ones
(60_exceptions.md R202, 30_encoding.md R98). Numbers: notes/assumptions/1.md. -/
def Obligations.SampleWordsDecode : Prop :=
  decodeWord 0x00E0 = some .cls ∧ decodeWord 0x00EE = some .ret ∧ decodeWord 0x1234 = some (.jpNnn 0x234) ∧
  decodeWord 0x332A = some (.seVxKk 3 0x2A) ∧ decodeWord 0x8124 = some (.addVxVy 1 2) ∧
  decodeWord 0xC10F = some (.rndVxKk 1 0x0F) ∧ decodeWord 0xD015 = some (.drwVxVyN 0 1 5) ∧
  decodeWord 0xE59E = some (.skpVx 5) ∧ decodeWord 0xF70A = some (.ldVxK 7) ∧ decodeWord 0xF265 = some (.ldVxMem 2) ∧
  decodeWord 0x5231 = none ∧ decodeWord 0x0000 = none

/-! ## Fetch and step -/

/-- The fetch (20_memory.md R60): the big-endian word at `pc` and `pc + 1` exactly when `pc <= 0xFFE`, else an out-of-bounds
report naming `pc + 1` at 0xFFF and `pc` above, and then a step request in RUN reports it and answers no state. The low byte of
the word is the byte at `pc + 1`, the high byte the byte at `pc`. -/
def Obligations.FetchIsBigEndianAndBounded : Prop :=
  ∀ s : State,
    (s.pc.toNat ≤ 0xFFE → ∃ w, fetch s = .ok w ∧ highByte w = Memory.get s.mem s.pc.toNat ∧
      lowByte w = Memory.get s.mem (s.pc.toNat + 1)) ∧
    (s.pc.toNat = 0xFFF → fetch s = .error (.outOfBounds 0x1000 .fetch)) ∧
    (0xFFF < s.pc.toNat → fetch s = .error (.outOfBounds s.pc.toNat .fetch)) ∧
    (∀ f, s.mode = .run → fetch s = .error f → applyEvent .stepRequest s = .fault f)

/-- Each step of the model takes the event that comes next: the oldest one listed, which leaves the list, or, with none listed, a
free one, which is counted (20_memory.md R78, R80, 60_exceptions.md R220). The list and the count are the model's form (DESIGN
CHOICE, notes/assumptions/6.md). -/
def Obligations.EachStepTakesTheNextEvent : Prop :=
  ∀ s : State,
    (∀ e es, s.inputs = e :: es → step s = applyEvent e { s with inputs := es }) ∧
    (s.inputs = [] → step s = applyEvent (Config.hostEvent s.arrivals) { s with arrivals := s.arrivals + 1 })

/-- Any number of ticks may come next, in RUN and while waiting, whatever comes after them (20_memory.md R80): they are `n` steps
of the model, which are the `n` ticks. The list is the model's form (notes/assumptions/6.md). -/
def Obligations.AnyNumberOfTicksMayComeNext : Prop :=
  ∀ (n : Nat) (es : List Event) (s : State), s.inputs = List.replicate n .tick ++ es →
    Host.Core.run core n s = .next { ticks n s with inputs := es }

/-- A step runs the decoded instruction (40_control_flow.md R120): with a step request next, listed or free, in RUN, when the
fetched word decodes to `i`, the step is exec of `i` with `draw_occurred` cleared and the request used up. -/
def Obligations.StepRunsTheDecodedInstruction : Prop :=
  ∀ (s : State) (w : Word) (i : Instr), nextEvent s = .stepRequest → s.mode = .run → fetch s = .ok w →
    decodeWord w = some i → step s = exec i { consumeEvent s with drawOccurred := false }

/-- The order of checks of a step (60_exceptions.md R202, R207; the order is the spec's decision D10, notes/assumptions/11.md):
an error of the fetch is reported first; a word that is no instruction is a decode failure with the word and `pc`; else the
outcome is the instruction's own. -/
def Obligations.FirstFailingCheckIsReported : Prop :=
  ∀ s : State, s.mode = .run →
    (∀ f, fetch s = .error f → applyEvent .stepRequest s = .fault f) ∧
    (∀ w, fetch s = .ok w → decodeWord w = none → applyEvent .stepRequest s = .fault (.decodeFailure w s.pc)) ∧
    (∀ w i f, fetch s = .ok w → decodeWord w = some i → faultOf i s = some f → applyEvent .stepRequest s = .fault f)

/-- Every instruction completes in every state but those where its own check fails, and there it raises exactly that fault
(60_exceptions.md R203 to R205, 70_reset_and_hazards.md R251; the reported address is the spec's decision D10,
notes/assumptions/11.md). -/
def Obligations.InstructionsCompleteUnlessTheirCheckFails : Prop :=
  ∀ (i : Instr) (s : State),
    (faultOf i s = none → ∃ t, exec i s = .next t) ∧ (∀ f, faultOf i s = some f → exec i s = .fault f)

/-- No step of the machine is refused: each ends in a next state or in a fault of 60_exceptions.md R201. -/
def Obligations.NoStepIsRefused : Prop :=
  ∀ (s : State) (r : Refusal), step s ≠ .refused r

/-- While waiting for a key the engine takes no step: a step request changes nothing (44_timers_input.md R194, R198). The model
answers a next state, the same one (DESIGN CHOICE, notes/assumptions/19.md). -/
def Obligations.WaitingEngineTakesNoStep : Prop :=
  ∀ s : State, s.mode = .waitKey → nextEvent s = .stepRequest → step s = .next (consumeEvent s)

/-- An instruction placed by `withFetchWord` is the one the next step runs (20_memory.md R60; placement is the model's,
notes/assumptions/23.md). -/
def Obligations.PlacedInstructionRunsNext : Prop :=
  ∀ (s : State) (i : Instr), s.mem.wf = true →
    step (s.withFetchWord 16 (encode i).toNat) =
      exec i { s.withFetchWord 16 (encode i).toNat with drawOccurred := false, inputs := s.inputs }

/-- Self-modifying code (20_memory.md R84): bytes stored by LD [I],Vx are what the next fetch of those addresses reads, with the
byte at the lower address high. -/
def Obligations.StoredBytesAreFetched : Prop :=
  ∀ (x : Nibble) (s : State) (k : Nat), s.mem.wf = true → k < x.toNat → s.i.toNat + x.toNat < 4096 →
    ∃ t, exec (.ldMemVx x) s = .next t ∧
      ∀ u : State, u.mem = t.mem → u.pc.toNat = s.i.toNat + k →
        fetch u = .ok (wordOfBytes (s.reg (BitVec.ofNat 4 k)) (s.reg (BitVec.ofNat 4 (k + 1))))

/-! ## Reset and the invariant -/

/-- The state after initialise (10_state.md R47). `pc` = 0x200 is the spec's decision D4 (notes/assumptions/3.md), the font bytes
are its parameter FONT_TABLE (notes/assumptions/2.md), mode RUN its decision D17. -/
def Obligations.ResetStateIsAsSpecified : Prop :=
  (∀ a, a < 80 → Memory.get State.reset.mem a = fontTable.getD a 0) ∧
  (∀ a, 80 ≤ a → Memory.get State.reset.mem a = 0) ∧
  (∀ k, State.reset.reg k = 0) ∧ State.reset.i = 0 ∧ State.reset.pc = 0x200 ∧ State.reset.sp = 0 ∧
  (∀ k, 1 ≤ k → k ≤ 16 → State.reset.stackSlot k = 0) ∧ State.reset.dt = 0 ∧ State.reset.st = 0 ∧
  (∀ row col, State.reset.fb.pixel row col = false) ∧ (∀ k, State.reset.key k = false) ∧ State.reset.mode = .run

/-- The reset state meets the invariant (10_state.md R28, R47). -/
def Obligations.ResetMeetsInvariant : Prop := State.reset.Inv

/-- HEADLINE. From every state that meets the invariant, every step (of the engine, the clock or the host) that answers a next
state answers one that meets it: memory keeps its canonical form, `pc` never exceeds 0x10FE (10_state.md R28), every stack slot
stays fetchable, and a waiting engine's `pc` too. -/
def Obligations.StepKeepsInvariant : Prop :=
  ∀ s t : State, s.Inv → step s = .next t → t.Inv

/-! ## Host events -/

/-- The two timers (10_state.md R37): a tick decrements each that is nonzero, floor 0, each from itself alone; LD DT,Vx and
LD ST,Vx overwrite one with any value and leave the other; initialise sets both to 0; no other instruction and no other event
changes either. -/
def Obligations.TimersOnlyDecrementApartFromWrites : Prop :=
  (∀ s : State, nextEvent s = .tick → ∃ t, step s = .next t ∧
    t.dt.toNat = s.dt.toNat - 1 ∧ t.st.toNat = s.st.toNat - 1 ∧ t = { consumeEvent s with dt := t.dt, st := t.st }) ∧
  (∀ x s, ∃ t, exec (.ldDtVx x) s = .next t ∧ t.dt = s.reg x ∧ t.st = s.st) ∧
  (∀ x s, ∃ t, exec (.ldStVx x) s = .next t ∧ t.st = s.reg x ∧ t.dt = s.dt) ∧
  (∀ i s t, (∀ x, i ≠ .ldDtVx x) → (∀ x, i ≠ .ldStVx x) → exec i s = .next t → t.dt = s.dt ∧ t.st = s.st) ∧
  (∀ s t, s.mode = .waitKey → engineStep s = .next t → t.dt = s.dt ∧ t.st = s.st) ∧
  (∀ s, (initialise s).dt = 0 ∧ (initialise s).st = 0) ∧
  (∀ k pressed s, (setKeyEvent k pressed s).dt = s.dt ∧ (setKeyEvent k pressed s).st = s.st) ∧
  (∀ bytes s t, loadProgram bytes s = .next t → t.dt = s.dt ∧ t.st = s.st)

/-- After `n` ticks each timer is its start value less `n`, never below 0, and nothing else has changed (60_exceptions.md R216,
10_state.md R37). -/
def Obligations.TicksCountDownToZero : Prop :=
  ∀ (n : Nat) (s : State), (ticks n s).dt.toNat = s.dt.toNat - n ∧ (ticks n s).st.toNat = s.st.toNat - n ∧
    ticks n s = { s with dt := (ticks n s).dt, st := (ticks n s).st }

/-- A tick before an instruction that touches no timer is a tick after it (20_memory.md R81, an inference the spec marks as its
own). -/
def Obligations.TickCommutesWithUntimedInstructions : Prop :=
  ∀ (i : Instr) (s : State), touchesTimer i = false →
    exec i (tick s) = match exec i s with
      | .next t => .next (tick t)
      | .fault f => .fault f
      | .refused r => .refused r

/-- The key latch table (44_timers_input.md R195, R198, 60_exceptions.md R224): in RUN an event only writes the latch; while
waiting, the press of a released key also writes its number into the waiting register, advances `pc` by 2 and returns to RUN; a
repeated press changes nothing and a release only clears the latch. The edge reading is the spec's decision D16
(notes/assumptions/18.md). -/
def Obligations.KeyEventsFollowTheLatchTable : Prop :=
  ∀ (k : Nibble) (pressed : Bool) (s : State), nextEvent s = .setKey k pressed →
    ∃ t, step s = .next t ∧ t.key k = pressed ∧ (∀ j, j ≠ k → t.key j = s.key j) ∧
      (if s.mode = .waitKey ∧ pressed = true ∧ s.key k = false then
        t.reg s.waitX = k.setWidth 8 ∧ (∀ j, j ≠ s.waitX → t.reg j = s.reg j) ∧ t.pc = s.pc + 2 ∧ t.mode = .run ∧
        t = { consumeEvent s with keys := t.keys, regs := t.regs, pc := t.pc, mode := .run }
      else t = { consumeEvent s with keys := t.keys })

/-- Initialise gives the reset state in either mode and whatever ran before (60_exceptions.md R221, 70_reset_and_hazards.md R240;
`pc` is the spec's decision D4). The model's list of events and its counts of free draws and free events go on (DESIGN CHOICE,
notes/assumptions/22.md). -/
def Obligations.InitialiseGivesResetState : Prop :=
  ∀ s : State, nextEvent s = .initialise →
    step s = .next { State.reset with
      draws := s.draws, inputs := (consumeEvent s).inputs, arrivals := (consumeEvent s).arrivals }

/-- Loading a program (60_exceptions.md R206, R222): up to 3584 bytes go to 0x200 upward, every other byte and all other state as
before; more are reported and nothing is loaded. A load at any event boundary is the spec's decision D25
(notes/assumptions/22.md). -/
def Obligations.LoadProgramInstallsTheImage : Prop :=
  ∀ (s : State) (bytes : List Byte), s.mem.wf = true → nextEvent s = .loadProgram bytes →
    (bytes.length ≤ 3584 → ∃ t, step s = .next t ∧
      (∀ j, (h : j < bytes.length) → Memory.get t.mem (0x200 + j) = bytes[j]) ∧
      (∀ a, a < 0x200 ∨ 0x200 + bytes.length ≤ a → Memory.get t.mem a = Memory.get s.mem a) ∧
      t = { consumeEvent s with mem := t.mem }) ∧
    (3584 < bytes.length → step s = .fault (.programLoadError bytes.length))

/-! ## Jumps, calls and skips -/

/-- JP nnn and JP V0,nnn (40_control_flow.md R122, R123, R130): `pc` is the target, any target, and nothing else changes; the sum
of JP V0 is not masked and never wraps. -/
def Obligations.JumpsSetTheProgramCounter : Prop :=
  ∀ (nnn : Addr12) (s : State),
    (∃ t, exec (.jpNnn nnn) s = .next t ∧ t.pc.toNat = nnn.toNat ∧ OnlyPc s t) ∧
    (∃ t, exec (.jpV0Nnn nnn) s = .next t ∧ t.pc.toNat = nnn.toNat + (s.reg 0).toNat ∧ OnlyPc s t)

/-- The skips (40_control_flow.md R129): each completes in every state, with `pc` 4 further when its test holds and 2 further
otherwise, on the full 8-bit values, and nothing else changed whatever word is skipped. -/
def Obligations.SkipsAdvanceByFourOrTwo : Prop :=
  (∀ x kk s, exec (.seVxKk x kk) s = .next { s with pc := s.pc + (if (s.reg x).toNat = kk.toNat then 4 else 2) }) ∧
  (∀ x kk s, exec (.sneVxKk x kk) s = .next { s with pc := s.pc + (if (s.reg x).toNat ≠ kk.toNat then 4 else 2) }) ∧
  (∀ x y s, exec (.seVxVy x y) s = .next { s with pc := s.pc + (if (s.reg x).toNat = (s.reg y).toNat then 4 else 2) }) ∧
  (∀ x y s, exec (.sneVxVy x y) s = .next { s with pc := s.pc + (if (s.reg x).toNat ≠ (s.reg y).toNat then 4 else 2) }) ∧
  (∀ x s, exec (.skpVx x) s = .next { s with pc := s.pc + (if s.key (lowNibble (s.reg x)) = true then 4 else 2) }) ∧
  (∀ x s, exec (.sknpVx x) s = .next { s with pc := s.pc + (if s.key (lowNibble (s.reg x)) = false then 4 else 2) })

/-- SKP and SKNP (44_timers_input.md R190, R191): the key tested is VX masked to 0..15; the latch and everything else but `pc`
stay. -/
def Obligations.KeySkipsTestTheLatch : Prop :=
  ∀ (x k : Nibble) (s : State), k.toNat = (s.reg x).toNat % 16 →
    (∃ t, exec (.skpVx x) s = .next t ∧ t.pc = s.pc + (if s.key k = true then 4 else 2) ∧ OnlyPc s t) ∧
    (∃ t, exec (.sknpVx x) s = .next t ∧ t.pc = s.pc + (if s.key k = false then 4 else 2) ∧ OnlyPc s t)

/-- CALL (40_control_flow.md R124): with room on the stack, the address of the CALL itself goes to the next slot, `sp` goes up,
`pc` is the target, and nothing else changes. The slot numbers are the spec's decision D22 (notes/assumptions/21.md). -/
def Obligations.CallPushesItsOwnAddress : Prop :=
  ∀ (nnn : Addr12) (s : State), s.sp.val < 16 →
    ∃ t, exec (.callNnn nnn) s = .next t ∧ t.pc.toNat = nnn.toNat ∧ t.sp.val = s.sp.val + 1 ∧
      t.stackSlot t.sp.val = s.pc ∧ (∀ k, 1 ≤ k → k ≤ 16 → k ≠ t.sp.val → t.stackSlot k = s.stackSlot k) ∧
      t = { s with pc := t.pc, sp := t.sp, stack := t.stack } ∧ ∀ a, Memory.get t.mem a = Memory.get s.mem a

/-- RET (40_control_flow.md R121): with an address on the stack, `pc` is that address plus 2, `sp` goes down, the slots keep their
values, and nothing else changes. -/
def Obligations.ReturnPopsAndAdvances : Prop :=
  ∀ s : State, s.sp.val ≠ 0 →
    ∃ t, exec .ret s = .next t ∧ t.pc = s.stackSlot s.sp.val + 2 ∧ t.sp.val + 1 = s.sp.val ∧
      t = { s with pc := t.pc, sp := t.sp } ∧ ∀ a, Memory.get t.mem a = Memory.get s.mem a

/-- Stack overflow (60_exceptions.md R204): calls succeed as long as the depth stays within 16, so 16 nested calls from an empty
stack succeed, and the call that would go beyond, the 17th, raises StackOverflow; at `sp = 16` a CALL raises it at once. -/
def Obligations.CallsBeyondDepthSixteenOverflow : Prop :=
  (∀ nnn s, s.sp.val = 16 → exec (.callNnn nnn) s = .fault .stackOverflow) ∧
  (∀ targets s, s.sp.val + targets.length ≤ 16 →
    ∃ t, callAll targets s = .next t ∧ t.sp.val = s.sp.val + targets.length) ∧
  (∀ targets s, 16 < s.sp.val + targets.length → callAll targets s = .fault .stackOverflow)

/-- Stack underflow (60_exceptions.md R205): RET on an empty stack raises it, and no other instruction or state does. -/
def Obligations.ReturnOnEmptyStackUnderflows : Prop :=
  ∀ (i : Instr) (s : State), exec i s = .fault .stackUnderflow ↔ i = .ret ∧ s.sp.val = 0

/-- A call returns to the instruction after it (40_control_flow.md R121, R124): in any later state with the stack as the call left
it, RET goes to the address of the CALL plus 2 and the stack is as deep as before the call. -/
def Obligations.ReturnUndoesCall : Prop :=
  ∀ (nnn : Addr12) (s t u : State), exec (.callNnn nnn) s = .next t → u.sp = t.sp → u.stack = t.stack →
    ∃ v, exec .ret u = .next v ∧ v.pc = s.pc + 2 ∧ v.sp = s.sp ∧
      ∀ k, 1 ≤ k → k ≤ s.sp.val → v.stackSlot k = s.stackSlot k

/-! ## Whole-machine rules -/

/-- Only CALL and RET move the stack pointer, by one, and it never leaves 0..16 (10_state.md R33). -/
def Obligations.StackPointerMovesOnlyByCallAndReturn : Prop :=
  ∀ (i : Instr) (s t : State), exec i s = .next t → t.sp.val ≤ 16 ∧
    ((∃ nnn, i = .callNnn nnn) ∧ t.sp.val = s.sp.val + 1 ∨ i = .ret ∧ t.sp.val + 1 = s.sp.val ∨
      (∀ nnn, i ≠ .callNnn nnn) ∧ i ≠ .ret ∧ t.sp = s.sp ∧ t.stack = s.stack)

/-- Only CLS and DRW write the framebuffer (10_state.md R38, 43_display.md R180). -/
def Obligations.FramebufferWrittenOnlyByClearAndDraw : Prop :=
  ∀ (i : Instr) (s t : State), exec i s = .next t → t.fb ≠ s.fb → i = .cls ∨ ∃ x y n, i = .drwVxVyN x y n

/-- Only LD I,nnn, ADD I,Vx and LD F,Vx write the index register (10_state.md R31; that the memory instructions do not is the
spec's decision D14, notes/assumptions/15.md). -/
def Obligations.IndexWrittenOnlyByIndexInstructions : Prop :=
  ∀ (i : Instr) (s t : State), exec i s = .next t → t.i ≠ s.i →
    (∃ nnn, i = .ldINnn nnn) ∨ (∃ x, i = .addIVx x) ∨ (∃ x, i = .ldFVx x)

/-- Only LD B,Vx and LD [I],Vx write memory, and only at `I .. I + 2` and `I .. I + X` (20_memory.md R65). -/
def Obligations.MemoryWrittenOnlyByStores : Prop :=
  ∀ (i : Instr) (s t : State) (a : Nat), exec i s = .next t → Memory.get t.mem a ≠ Memory.get s.mem a →
    (∃ x, i = .ldBVx x ∧ s.i.toNat ≤ a ∧ a ≤ s.i.toNat + 2) ∨
    (∃ x, i = .ldMemVx x ∧ s.i.toNat ≤ a ∧ a ≤ s.i.toNat + x.toNat)

/-- An instruction changes no general register but those its rule names, VF included (10_state.md R22, R24, R29). -/
def Obligations.RegistersWrittenOnlyAsNamed : Prop :=
  ∀ (i : Instr) (s t : State) (j : Nibble), exec i s = .next t → ¬ MayWrite i j → t.reg j = s.reg j

/-- No instruction writes the key latch, and only LD Vx,K leaves RUN (10_state.md R39, 44_timers_input.md R194). -/
def Obligations.LatchUntouchedAndOnlyKeyWaitSuspends : Prop :=
  ∀ (i : Instr) (s t : State), exec i s = .next t →
    t.keys = s.keys ∧ ((∀ x, i ≠ .ldVxK x) → t.mode = s.mode ∧ t.waitX = s.waitX)

/-- Every instruction that is no transfer, skip or key wait advances `pc` by 2 (10_state.md R26, 00_scope.md R12). -/
def Obligations.SequentialInstructionsAdvanceByTwo : Prop :=
  ∀ (i : Instr) (s t : State), exec i s = .next t → transfersControl i = false → t.pc = s.pc + 2

/-- A step that runs an instruction to completion reports a draw exactly when the instruction is DRW (60_exceptions.md R226; the
letter of the source by the spec's decision D18, notes/assumptions/9.md). -/
def Obligations.DrawReportedExactlyByDraw : Prop :=
  ∀ (s t : State) (w : Word) (i : Instr), s.mode = .run → fetch s = .ok w → decodeWord w = some i →
    applyEvent .stepRequest s = .next t → (t.drawOccurred = true ↔ ∃ x y n, i = .drwVxVyN x y n)

/-- The output bit `draw_occurred` is read by nothing, so it is no state of the machine (10_state.md R44 d, 60_exceptions.md R226;
the field is the model's, notes/assumptions/9.md). -/
def Obligations.DrawOutputIsReadByNothing : Prop :=
  ∀ (s : State) (b : Bool), SameButDrawOutput (step s) (step { s with drawOccurred := b })

/-! ## Loads, arithmetic, logic, shifts, random -/

/-- LD Vx,kk and LD Vx,Vy (41_alu.md R141, R143): VX takes the value, no other register and nothing else but `pc` changes. -/
def Obligations.LoadsCopyIntoTheRegister : Prop :=
  ∀ (x : Nibble) (s : State),
    (∀ kk, ∃ t, exec (.ldVxKk x kk) s = .next t ∧ t.reg x = kk ∧ (∀ j, j ≠ x → t.reg j = s.reg j) ∧
      t.pc = s.pc + 2 ∧ OnlyRegsPc s t) ∧
    (∀ y, ∃ t, exec (.ldVxVy x y) s = .next t ∧ t.reg x = s.reg y ∧ (∀ j, j ≠ x → t.reg j = s.reg j) ∧
      t.pc = s.pc + 2 ∧ OnlyRegsPc s t)

/-- ADD Vx,kk (41_alu.md R142): the sum modulo 256 and no flag, VF included unless it is the destination. -/
def Obligations.AddImmediateWritesNoFlag : Prop :=
  ∀ (x : Nibble) (kk : Byte) (s : State), ∃ t, exec (.addVxKk x kk) s = .next t ∧
    (t.reg x).toNat = ((s.reg x).toNat + kk.toNat) % 256 ∧ (∀ j, j ≠ x → t.reg j = s.reg j) ∧
    t.pc = s.pc + 2 ∧ OnlyRegsPc s t

/-- OR, AND, XOR (41_alu.md R144 to R146): bit by bit, and no flag. -/
def Obligations.LogicWorksBitByBit : Prop :=
  ∀ (x y : Nibble) (s : State),
    (∃ t, exec (.orVxVy x y) s = .next t ∧
      (∀ b, (t.reg x).getLsbD b = ((s.reg x).getLsbD b || (s.reg y).getLsbD b)) ∧
      (∀ j, j ≠ x → t.reg j = s.reg j) ∧ t.pc = s.pc + 2 ∧ OnlyRegsPc s t) ∧
    (∃ t, exec (.andVxVy x y) s = .next t ∧
      (∀ b, (t.reg x).getLsbD b = ((s.reg x).getLsbD b && (s.reg y).getLsbD b)) ∧
      (∀ j, j ≠ x → t.reg j = s.reg j) ∧ t.pc = s.pc + 2 ∧ OnlyRegsPc s t) ∧
    (∃ t, exec (.xorVxVy x y) s = .next t ∧
      (∀ b, (t.reg x).getLsbD b = ((s.reg x).getLsbD b != (s.reg y).getLsbD b)) ∧
      (∀ j, j ≠ x → t.reg j = s.reg j) ∧ t.pc = s.pc + 2 ∧ OnlyRegsPc s t)

/-- ADD Vx,Vy (41_alu.md R147, R148): VX is the sum modulo 256; VF is 1 exactly when the sum exceeds 255, unless `X = 15`, where
the sum stays (the spec's decision D7, notes/assumptions/12.md). Both operands are the values before the instruction. -/
def Obligations.AddSetsTheCarry : Prop :=
  ∀ (x y : Nibble) (s : State), ∃ t, exec (.addVxVy x y) s = .next t ∧
    (t.reg x).toNat = ((s.reg x).toNat + (s.reg y).toNat) % 256 ∧
    (x ≠ 15 → t.reg 15 = if 255 < (s.reg x).toNat + (s.reg y).toNat then 1 else 0) ∧
    (∀ j, j ≠ x → j ≠ 15 → t.reg j = s.reg j) ∧ t.pc = s.pc + 2 ∧ OnlyRegsPc s t

/-- SUB and SUBN (41_alu.md R147, R149, R151): VX is the difference modulo 256; VF is 1 exactly when the minuend is strictly
greater, unless `X = 15`, where the difference stays (the spec's decision D7, notes/assumptions/12.md). -/
def Obligations.SubtractsSetTheStrictFlag : Prop :=
  ∀ (x y : Nibble) (s : State),
    (∃ t, exec (.subVxVy x y) s = .next t ∧
      (t.reg x).toNat = ((s.reg x).toNat + 256 - (s.reg y).toNat) % 256 ∧
      (x ≠ 15 → t.reg 15 = if (s.reg y).toNat < (s.reg x).toNat then 1 else 0) ∧
      (∀ j, j ≠ x → j ≠ 15 → t.reg j = s.reg j) ∧ t.pc = s.pc + 2 ∧ OnlyRegsPc s t) ∧
    (∃ t, exec (.subnVxVy x y) s = .next t ∧
      (t.reg x).toNat = ((s.reg y).toNat + 256 - (s.reg x).toNat) % 256 ∧
      (x ≠ 15 → t.reg 15 = if (s.reg x).toNat < (s.reg y).toNat then 1 else 0) ∧
      (∀ j, j ≠ x → j ≠ 15 → t.reg j = s.reg j) ∧ t.pc = s.pc + 2 ∧ OnlyRegsPc s t)

/-- SHR and SHL (41_alu.md R150, R152, 30_encoding.md R100): VX is halved or doubled modulo 256 whatever `Y` is; VF is the bit
shifted out of the value before the shift, unless `X = 15`, where the result stays (the spec's decision D7,
notes/assumptions/12.md). -/
def Obligations.ShiftsSetTheBitShiftedOut : Prop :=
  ∀ (x y : Nibble) (s : State),
    (∃ t, exec (.shrVx x y) s = .next t ∧ (t.reg x).toNat = (s.reg x).toNat / 2 ∧
      (x ≠ 15 → (t.reg 15).toNat = (s.reg x).toNat % 2) ∧
      (∀ j, j ≠ x → j ≠ 15 → t.reg j = s.reg j) ∧ t.pc = s.pc + 2 ∧ OnlyRegsPc s t) ∧
    (∃ t, exec (.shlVx x y) s = .next t ∧ (t.reg x).toNat = 2 * (s.reg x).toNat % 256 ∧
      (x ≠ 15 → (t.reg 15).toNat = (s.reg x).toNat / 128) ∧
      (∀ j, j ≠ x → j ≠ 15 → t.reg j = s.reg j) ∧ t.pc = s.pc + 2 ∧ OnlyRegsPc s t)

/-- RND (41_alu.md R156): VX is the next free byte ANDed with the immediate, so it has no 1 bit where the immediate has none; the
draw is used up. It holds whatever the free byte is (notes/assumptions/7.md). -/
def Obligations.RandomByteIsMasked : Prop :=
  ∀ (x : Nibble) (kk : Byte) (s : State), ∃ t, exec (.rndVxKk x kk) s = .next t ∧
    t.reg x = Config.randomByte s.draws &&& kk ∧ (∀ b, kk.getLsbD b = false → (t.reg x).getLsbD b = false) ∧
    t.draws = s.draws + 1 ∧ (∀ j, j ≠ x → t.reg j = s.reg j) ∧ t.pc = s.pc + 2 ∧
    t = { s with regs := t.regs, pc := t.pc, draws := t.draws } ∧ ∀ a, Memory.get t.mem a = Memory.get s.mem a

/-! ## Index register and memory -/

/-- LD I,nnn, ADD I,Vx, LD F,Vx (42_index_memory.md R161 to R163): the address field; the sum modulo 65536 (the spec's decision
D12, notes/assumptions/15.md); five times the low nibble of VX (its decision D13, notes/assumptions/16.md). No flag. -/
def Obligations.IndexInstructionsSetTheIndex : Prop :=
  ∀ s : State,
    (∀ nnn, ∃ t, exec (.ldINnn nnn) s = .next t ∧ t.i.toNat = nnn.toNat ∧ t.pc = s.pc + 2 ∧ OnlyIndexPc s t) ∧
    (∀ x, ∃ t, exec (.addIVx x) s = .next t ∧ t.i.toNat = (s.i.toNat + (s.reg x).toNat) % 65536 ∧ t.pc = s.pc + 2 ∧
      OnlyIndexPc s t) ∧
    (∀ x, ∃ t, exec (.ldFVx x) s = .next t ∧ t.i.toNat = 5 * ((s.reg x).toNat % 16) ∧ t.pc = s.pc + 2 ∧ OnlyIndexPc s t)

/-- LD B,Vx (42_index_memory.md R164): with `I + 2` inside memory, the hundreds, tens and ones of VX go to `I`, `I + 1`, `I + 2`,
each a decimal digit, and nothing else but `pc` changes. -/
def Obligations.BcdStoresTheDecimalDigits : Prop :=
  ∀ (x : Nibble) (s : State), s.mem.wf = true → s.i.toNat + 2 < 4096 →
    ∃ t, exec (.ldBVx x) s = .next t ∧
      (s.reg x).toNat = 100 * (Memory.get t.mem s.i.toNat).toNat + 10 * (Memory.get t.mem (s.i.toNat + 1)).toNat +
        (Memory.get t.mem (s.i.toNat + 2)).toNat ∧
      (Memory.get t.mem s.i.toNat).toNat ≤ 2 ∧ (Memory.get t.mem (s.i.toNat + 1)).toNat ≤ 9 ∧
      (Memory.get t.mem (s.i.toNat + 2)).toNat ≤ 9 ∧ t.pc = s.pc + 2 ∧ OnlyStoredPc s.i.toNat 3 s t

/-- LD [I],Vx (42_index_memory.md R165): with `I + X` inside memory, V0..VX go to `I .. I + X`, and nothing else but `pc`
changes. -/
def Obligations.RegisterBlockIsStored : Prop :=
  ∀ (x : Nibble) (s : State), s.mem.wf = true → s.i.toNat + x.toNat < 4096 →
    ∃ t, exec (.ldMemVx x) s = .next t ∧
      (∀ j : Nibble, j.toNat ≤ x.toNat → Memory.get t.mem (s.i.toNat + j.toNat) = s.reg j) ∧
      t.pc = s.pc + 2 ∧ OnlyStoredPc s.i.toNat (x.toNat + 1) s t

/-- LD Vx,[I] (42_index_memory.md R166): with `I + X` inside memory, V0..VX take the bytes at `I .. I + X`, the registers above
and everything else but `pc` stay. -/
def Obligations.RegisterBlockIsLoaded : Prop :=
  ∀ (x : Nibble) (s : State), s.i.toNat + x.toNat < 4096 →
    ∃ t, exec (.ldVxMem x) s = .next t ∧
      (∀ j : Nibble, j.toNat ≤ x.toNat → t.reg j = Memory.get s.mem (s.i.toNat + j.toNat)) ∧
      (∀ j : Nibble, x.toNat < j.toNat → t.reg j = s.reg j) ∧ t.pc = s.pc + 2 ∧ OnlyRegsPc s t

/-- What LD [I],Vx stores, LD Vx,[I] with the same `X`, `I` and memory restores, whatever the registers hold by then
(42_index_memory.md R165, R166, 95_test_vectors.md). -/
def Obligations.LoadRestoresWhatStoreSaved : Prop :=
  ∀ (x : Nibble) (s t u : State), s.mem.wf = true → exec (.ldMemVx x) s = .next t → u.mem = t.mem → u.i = s.i →
    ∃ v, exec (.ldVxMem x) u = .next v ∧ ∀ j : Nibble, j.toNat ≤ x.toNat → v.reg j = s.reg j

/-- The range checks (42_index_memory.md R164 to R167, 43_display.md R182): an access whose last address is above 4095 is reported
with the first address out of range (the spec's decision D10, notes/assumptions/11.md), computed without any wrap (its decision
D11, notes/assumptions/14.md), and no state is answered. -/
def Obligations.AccessesBeyondMemoryAreReported : Prop :=
  ∀ (x y n : Nibble) (s : State),
    (4096 ≤ s.i.toNat + 2 → exec (.ldBVx x) s = .fault (.outOfBounds (max s.i.toNat 4096) .write)) ∧
    (4096 ≤ s.i.toNat + x.toNat → exec (.ldMemVx x) s = .fault (.outOfBounds (max s.i.toNat 4096) .write)) ∧
    (4096 ≤ s.i.toNat + x.toNat → exec (.ldVxMem x) s = .fault (.outOfBounds (max s.i.toNat 4096) .read)) ∧
    (n ≠ 0 → 4096 < s.i.toNat + n.toNat → exec (.drwVxVyN x y n) s = .fault (.outOfBounds (max s.i.toNat 4096) .read))

/-! ## Display -/

/-- CLS (43_display.md R181): every pixel becomes 0 and nothing else but `pc` changes, VF and the draw output included (the draw
output by the spec's decision D18, notes/assumptions/9.md). -/
def Obligations.ClearBlanksTheScreen : Prop :=
  ∀ s : State, ∃ t, exec .cls s = .next t ∧ (∀ row col, t.fb.pixel row col = false) ∧ t.pc = s.pc + 2 ∧
    t = { s with fb := t.fb, pc := t.pc } ∧ ∀ a, Memory.get t.mem a = Memory.get s.mem a

/-- DRW (43_display.md R182, R183 c): when the sprite can be read, exactly the covered pixels are inverted, VF is 1 if some
covered pixel was set and 0 if none was, a draw is reported, and no other register and nothing else but `pc` changes. With
`n = 0` no cell is covered, so VF is 0 (the spec's decision D19, notes/assumptions/24.md). -/
def Obligations.DrawXorsTheSprite : Prop :=
  ∀ (x y n : Nibble) (s : State), SpriteInside n s →
    ∃ t, exec (.drwVxVyN x y n) s = .next t ∧
      (∀ row col, Covers x y n s row col → t.fb.pixel row col = !s.fb.pixel row col) ∧
      (∀ row col, ¬ Covers x y n s row col → t.fb.pixel row col = s.fb.pixel row col) ∧
      ((∃ row col, Covers x y n s row col ∧ s.fb.pixel row col = true) → t.reg 15 = 1) ∧
      ((∀ row col, Covers x y n s row col → s.fb.pixel row col = false) → t.reg 15 = 0) ∧
      (∀ j, j ≠ 15 → t.reg j = s.reg j) ∧ t.drawOccurred = true ∧ t.pc = s.pc + 2 ∧
      t = { s with fb := t.fb, regs := t.regs, pc := t.pc, drawOccurred := true } ∧
      ∀ a, Memory.get t.mem a = Memory.get s.mem a

/-- Drawing the same sprite twice restores the framebuffer, and the second draw collides exactly when the sprite covers a cell
that was 0 before the first (43_display.md R183 a, an inference the spec marks as its own). VF must be no coordinate, since the
first draw writes it. -/
def Obligations.DrawingTwiceRestoresTheScreen : Prop :=
  ∀ (x y n : Nibble) (s t : State), x ≠ 15 → y ≠ 15 → exec (.drwVxVyN x y n) s = .next t →
    ∃ u, exec (.drwVxVyN x y n) t = .next u ∧ u.fb = s.fb ∧
      (t.reg 15 = 1 ↔ ∃ row col, Covers x y n s row col ∧ s.fb.pixel row col = true) ∧
      (u.reg 15 = 1 ↔ ∃ row col, Covers x y n s row col ∧ s.fb.pixel row col = false)

/-! ## Timers and the key wait -/

/-- LD Vx,DT, LD DT,Vx, LD ST,Vx (44_timers_input.md R192, R196, R197): the whole counter is copied one way, and nothing else but
`pc` changes. -/
def Obligations.TimerInstructionsCopyTheCounter : Prop :=
  ∀ (x : Nibble) (s : State),
    (∃ t, exec (.ldVxDt x) s = .next t ∧ t.reg x = s.dt ∧ (∀ j, j ≠ x → t.reg j = s.reg j) ∧ t.pc = s.pc + 2 ∧
      OnlyRegsPc s t) ∧
    (∃ t, exec (.ldDtVx x) s = .next t ∧ t.dt = s.reg x ∧ t.pc = s.pc + 2 ∧ t = { s with dt := t.dt, pc := t.pc } ∧
      ∀ a, Memory.get t.mem a = Memory.get s.mem a) ∧
    (∃ t, exec (.ldStVx x) s = .next t ∧ t.st = s.reg x ∧ t.pc = s.pc + 2 ∧ t = { s with st := t.st, pc := t.pc } ∧
      ∀ a, Memory.get t.mem a = Memory.get s.mem a)

/-- LD Vx,K, the issue (44_timers_input.md R193): the engine waits, remembers `X`, and nothing else changes, `pc` included. That
the wait is two events is the spec's decision D17. -/
def Obligations.KeyWaitSuspendsTheEngine : Prop :=
  ∀ (x : Nibble) (s : State), ∃ t, exec (.ldVxK x) s = .next t ∧ t.mode = .waitKey ∧ t.waitX = x ∧ t.pc = s.pc ∧
    t = { s with mode := .waitKey, waitX := x } ∧ ∀ a, Memory.get t.mem a = Memory.get s.mem a

/-- LD Vx,K from issue to completion (44_timers_input.md R193 to R195): after the issue, any ticks and step requests leave the
engine waiting, and the press of a released key then puts the key's number into VX and advances `pc` by 2 past the instruction.
The edge reading is the spec's decision D16 (notes/assumptions/18.md). -/
def Obligations.KeyWaitEndsWithThePressedKey : Prop :=
  ∀ (x k : Nibble) (s t u : State) (n : Nat) (es : List Event), exec (.ldVxK x) s = .next t → s.key k = false →
    engineStep (ticks n t) = .next u →
    ∃ v, step { u with inputs := .setKey k true :: es } = .next v ∧ (v.reg x).toNat = k.toNat ∧
      (∀ j, j ≠ x → v.reg j = s.reg j) ∧ v.pc = s.pc + 2 ∧ v.mode = .run ∧ v.key k = true ∧ v.inputs = es
end

