-- ==== Sys2Proof/Laws/Draw.lean ====
section
/-! SUPPORT. The law of the sprite raster: the pixels of a drawn framebuffer and the collision output, cell by cell
(43_display.md R182, R183). -/

namespace Sys2Proof.Machine

/-- Whether one of the first `k` bits of the sprite byte `b`, drawn from column `vx` on, is a 1 bit over column `col`. -/
def rowCovers (vx : Nat) (b : Byte) (k : Nat) (col : Fin 64) : Bool :=
  (List.range k).any fun c => b.getLsbD (7 - c) && decide (col = wrapCol (vx + c))

/-- Whether some 1 bit of the sprite bytes, the first of them sprite row `r`, is drawn over the cell. -/
def spriteCovers (vx vy : Nat) : Nat → List Byte → Fin 32 → Fin 64 → Bool
  | _, [], _, _ => false
  | r, b :: bs, row, col => (decide (row = wrapRow (vy + r)) && rowCovers vx b 8 col) || spriteCovers vx vy (r + 1) bs row col

theorem pixel_setPixel (fb : Framebuffer) (row row' : Fin 32) (col col' : Fin 64) (v : Bool) :
    (fb.setPixel row col v).pixel row' col' = if row' = row ∧ col' = col then v else fb.pixel row' col' := by
  simp only [Framebuffer.pixel, Framebuffer.setPixel, Fin.getElem_fin, Vector.getElem_set]
  by_cases hr : row' = row
  · subst hr
    by_cases hc : col' = col
    · subst hc; simp
    · simp [hc, Fin.val_ne_of_ne (Ne.symm hc)]
  · simp [hr, Fin.val_ne_of_ne (Ne.symm hr)]

theorem pixel_drawBit (vx vy r : Nat) (b : Byte) (acc : Framebuffer × Bool) (c : Nat) (row : Fin 32) (col : Fin 64) :
    (drawBit vx vy r b acc c).1.pixel row col =
      (acc.1.pixel row col ^^
        (decide (row = wrapRow (vy + r)) && (b.getLsbD (7 - c) && decide (col = wrapCol (vx + c))))) := by
  unfold drawBit
  by_cases hb : b.getLsbD (7 - c) = true
  · rw [if_pos hb]
    simp only [pixel_setPixel, hb, Bool.true_and]
    by_cases hr : row = wrapRow (vy + r) <;> by_cases hc : col = wrapCol (vx + c) <;> simp [hr, hc]
  · simp [hb]

theorem collided_drawBit (vx vy r : Nat) (b : Byte) (acc : Framebuffer × Bool) (c : Nat) :
    (drawBit vx vy r b acc c).2 =
      (acc.2 || (b.getLsbD (7 - c) && acc.1.pixel (wrapRow (vy + r)) (wrapCol (vx + c)))) := by
  unfold drawBit
  by_cases hb : b.getLsbD (7 - c) = true <;> simp [hb]

theorem rowCovers_succ (vx : Nat) (b : Byte) (k : Nat) (col : Fin 64) :
    rowCovers vx b (k + 1) col = (rowCovers vx b k col || (b.getLsbD (7 - k) && decide (col = wrapCol (vx + k)))) := by
  simp [rowCovers, List.range_succ]

/-- No column is visited twice within a row (43_display.md R183 c). -/
theorem rowCovers_fresh (vx : Nat) (b : Byte) {k : Nat} (hk : k < 64) : rowCovers vx b k (wrapCol (vx + k)) = false := by
  simp only [rowCovers, List.any_eq_false, List.mem_range, Bool.and_eq_true, decide_eq_true_eq, not_and]
  intro c hc _ h
  have := congrArg Fin.val h
  simp only [wrapCol] at this
  omega

theorem drawRow_prefix (vx vy r : Nat) (b : Byte) (acc : Framebuffer × Bool) {k : Nat} (hk : k ≤ 8) :
    (∀ row col, ((List.range k).foldl (drawBit vx vy r b) acc).1.pixel row col =
      (acc.1.pixel row col ^^ (decide (row = wrapRow (vy + r)) && rowCovers vx b k col))) ∧
    (((List.range k).foldl (drawBit vx vy r b) acc).2 = true ↔
      acc.2 = true ∨ ∃ col, rowCovers vx b k col = true ∧ acc.1.pixel (wrapRow (vy + r)) col = true) := by
  induction k with
  | zero => simp [rowCovers]
  | succ k ih =>
    obtain ⟨ihp, ihc⟩ := ih (by omega)
    rw [List.range_succ, List.foldl_append]
    simp only [List.foldl_cons, List.foldl_nil]
    refine ⟨fun row col => ?_, ?_⟩
    · rw [pixel_drawBit, ihp, rowCovers_succ]
      by_cases hc : col = wrapCol (vx + k)
      · subst hc; rw [rowCovers_fresh vx b (by omega)]; simp
      · simp [hc]
    · rw [collided_drawBit, Bool.or_eq_true, ihc, Bool.and_eq_true, ihp, rowCovers_fresh vx b (by omega)]
      simp only [rowCovers_succ, Bool.or_eq_true, Bool.and_eq_true, decide_eq_true_eq, Bool.and_false, Bool.xor_false]
      constructor
      · rintro ((h | ⟨col, h, h'⟩) | ⟨h, h'⟩)
        · exact .inl h
        · exact .inr ⟨col, .inl h, h'⟩
        · exact .inr ⟨_, .inr ⟨h, rfl⟩, h'⟩
      · rintro (h | ⟨col, h | ⟨h, rfl⟩, h'⟩)
        · exact .inl (.inl h)
        · exact .inl (.inr ⟨col, h, h'⟩)
        · exact .inr ⟨h, h'⟩

/-- A later sprite row never lies over an earlier one: at most 32 rows are drawn (43_display.md R183 c). -/
theorem spriteCovers_fresh (vx vy r d : Nat) (bs : List Byte) (hd : 0 < d) (hlen : d + bs.length ≤ 32) (col : Fin 64) :
    spriteCovers vx vy (r + d) bs (wrapRow (vy + r)) col = false := by
  induction bs generalizing d with
  | nil => rfl
  | cons b bs ih =>
    simp only [List.length_cons] at hlen
    have h := ih (d + 1) (by omega) (by omega)
    have hne : ¬ (wrapRow (vy + r) = wrapRow (vy + (r + d))) := by
      intro h
      have := congrArg Fin.val h
      simp only [wrapRow] at this
      omega
    rw [← Nat.add_assoc] at h
    simp only [spriteCovers, h, hne, decide_false, Bool.false_and, Bool.or_false]

/-- The rows drawn from `acc`: each cell is XORed with whether the sprite covers it, and the collision output is set exactly
when some covered cell was 1 (43_display.md R183 c). -/
theorem drawRows_spec (vx vy r : Nat) (bs : List Byte) (acc : Framebuffer × Bool) (hlen : bs.length ≤ 32) :
    (∀ row col, (drawRows vx vy r bs acc).1.pixel row col = (acc.1.pixel row col ^^ spriteCovers vx vy r bs row col)) ∧
    ((drawRows vx vy r bs acc).2 = true ↔
      acc.2 = true ∨ ∃ row col, spriteCovers vx vy r bs row col = true ∧ acc.1.pixel row col = true) := by
  induction bs generalizing r acc with
  | nil => simp [drawRows, spriteCovers]
  | cons b bs ih =>
    simp only [List.length_cons] at hlen
    obtain ⟨rowp, rowc⟩ := drawRow_prefix vx vy r b acc (Nat.le_refl 8)
    obtain ⟨ihp, ihc⟩ := ih (r + 1) (drawRow vx vy r b acc) (by omega)
    have fresh := spriteCovers_fresh vx vy r 1 bs (by omega) (by omega)
    refine ⟨fun row col => ?_, ?_⟩
    · rw [drawRows, ihp, drawRow, rowp, spriteCovers]
      by_cases hr : row = wrapRow (vy + r)
      · subst hr; simp [fresh col]
      · simp [hr]
    · rw [drawRows, ihc, drawRow, rowc]
      simp only [rowp, spriteCovers, Bool.or_eq_true, Bool.and_eq_true, decide_eq_true_eq]
      constructor
      · rintro ((h | ⟨col, h, h'⟩) | ⟨row, col, h, h'⟩)
        · exact .inl h
        · exact .inr ⟨_, col, .inl ⟨rfl, h⟩, h'⟩
        · refine .inr ⟨row, col, .inr h, ?_⟩
          have hr : ¬ row = wrapRow (vy + r) := by rintro rfl; simp [fresh col] at h
          simpa [hr] using h'
      · rintro (h | ⟨row, col, ⟨rfl, h⟩ | h, h'⟩)
        · exact .inl (.inl h)
        · exact .inl (.inr ⟨col, h, h'⟩)
        · refine .inr ⟨row, col, h, ?_⟩
          have hr : ¬ row = wrapRow (vy + r) := by rintro rfl; simp [fresh col] at h
          simpa [hr] using h'

/-- What a sprite covers, in the words of 43_display.md R182: bit `c` of sprite row `k` at column `(vx + c) mod 64`, row
`(vy + k) mod 32`. -/
theorem spriteCovers_iff (vx vy r : Nat) (bs : List Byte) (row : Fin 32) (col : Fin 64) :
    spriteCovers vx vy r bs row col = true ↔
      ∃ k, ∃ h : k < bs.length, ∃ c, c < 8 ∧ bs[k].getLsbD (7 - c) = true ∧ row.val = (vy + (r + k)) % 32 ∧
        col.val = (vx + c) % 64 := by
  induction bs generalizing r with
  | nil => simp [spriteCovers]
  | cons b bs ih =>
    simp only [spriteCovers, Bool.or_eq_true, Bool.and_eq_true, decide_eq_true_eq, ih, rowCovers, List.any_eq_true, List.mem_range]
    constructor
    · rintro (⟨rfl, c, hc, hb, rfl⟩ | ⟨k, h, c, hc, hb, hr, hcol⟩)
      · exact ⟨0, by simp, c, hc, hb, by simp [wrapRow], by simp [wrapCol]⟩
      · exact ⟨k + 1, by simpa using h, c, hc, by simpa using hb, by rw [hr]; congr 1; omega, hcol⟩
    · rintro ⟨k, h, c, hc, hb, hr, hcol⟩
      cases k with
      | zero => exact .inl ⟨Fin.ext (by simpa [wrapRow] using hr), c, hc, by simpa using hb, Fin.ext (by simpa [wrapCol] using hcol)⟩
      | succ k =>
        exact .inr ⟨k, by simpa using h, c, hc, by simpa using hb, by rw [hr]; congr 1; omega, hcol⟩

/-- The law of `drawSprite` for every sprite the machine can draw. -/
theorem drawSprite_spec (fb : Framebuffer) (vx vy : Nat) (bs : List Byte) (hlen : bs.length ≤ 32) :
    (∀ row col, (drawSprite fb vx vy bs).1.pixel row col = (fb.pixel row col ^^ spriteCovers vx vy 0 bs row col)) ∧
    ((drawSprite fb vx vy bs).2 = true ↔
      ∃ row col, spriteCovers vx vy 0 bs row col = true ∧ fb.pixel row col = true) := by
  have h := drawRows_spec vx vy 0 bs (fb, false) hlen
  simpa [drawSprite] using h

/-- Framebuffers that agree on every pixel are equal. -/
theorem Framebuffer.ext_pixel {a b : Framebuffer} (h : ∀ row col, a.pixel row col = b.pixel row col) : a = b := by
  apply Vector.ext
  intro r hr
  apply Vector.ext
  intro c hc
  exact h ⟨r, hr⟩ ⟨c, hc⟩

@[simp] theorem pixel_blank (row : Fin 32) (col : Fin 64) : Framebuffer.blank.pixel row col = false := by
  simp [Framebuffer.blank, Framebuffer.pixel]

end Sys2Proof.Machine
end

