-- ==== Sys2Proof/Laws/Encoding.lean ====
section
/-! SUPPORT. The fields of an encoded word are the fields it was made of, for each format of 30_encoding.md R92; and the fields
of any word are well-formed. -/

namespace Sys2Proof

theorem getLsbD_wordNNN (op : Nibble) (nnn : Addr12) (k : Nat) :
    (wordNNN op nnn).getLsbD k = if k < 12 then nnn.getLsbD k else op.getLsbD (k - 12) :=
  BitVec.getLsbD_append

theorem getLsbD_wordXKK (op x : Nibble) (kk : Byte) (k : Nat) :
    (wordXKK op x kk).getLsbD k =
      if k < 8 then kk.getLsbD k else if k - 8 < 4 then x.getLsbD (k - 8) else op.getLsbD (k - 8 - 4) := by
  have h := BitVec.getLsbD_append (x := op ++ x) (y := kk) (i := k)
  rw [BitVec.getLsbD_append (x := op) (y := x)] at h
  exact h

theorem getLsbD_wordXYN (op x y n : Nibble) (k : Nat) :
    (wordXYN op x y n).getLsbD k =
      if k < 4 then n.getLsbD k else if k - 4 < 4 then y.getLsbD (k - 4)
      else if k - 4 - 4 < 4 then x.getLsbD (k - 4 - 4) else op.getLsbD (k - 4 - 4 - 4) := by
  have h := BitVec.getLsbD_append (x := op ++ x ++ y) (y := n) (i := k)
  rw [BitVec.getLsbD_append (x := op ++ x) (y := y), BitVec.getLsbD_append (x := op) (y := x)] at h
  exact h

theorem getLsbD_wordOfBytes (hi lo : Byte) (k : Nat) :
    (wordOfBytes hi lo).getLsbD k = if k < 8 then lo.getLsbD k else hi.getLsbD (k - 8) :=
  BitVec.getLsbD_append

theorem getLsbD_kk (y n : Nibble) (k : Nat) :
    BitVec.getLsbD (w := 8) (y ++ n) k = if k < 4 then n.getLsbD k else y.getLsbD (k - 4) :=
  BitVec.getLsbD_append

theorem getLsbD_nnn (x : Nibble) (kk : Byte) (k : Nat) :
    BitVec.getLsbD (w := 12) (x ++ kk) k = if k < 8 then kk.getLsbD k else x.getLsbD (k - 8) :=
  BitVec.getLsbD_append

@[simp] theorem ofWord_wordNNN_op (op : Nibble) (nnn : Addr12) : (Fields.ofWord (wordNNN op nnn)).op = op := by
  apply BitVec.eq_of_getLsbD_eq; intro k hk
  have h : ¬ 12 + k < 12 := by omega
  simp [Fields.ofWord, getLsbD_wordNNN, hk, h]

@[simp] theorem ofWord_wordNNN_nnn (op : Nibble) (nnn : Addr12) : (Fields.ofWord (wordNNN op nnn)).nnn = nnn := by
  apply BitVec.eq_of_getLsbD_eq; intro k hk
  simp [Fields.ofWord, getLsbD_wordNNN, hk]

@[simp] theorem ofWord_wordXKK_op (op x : Nibble) (kk : Byte) : (Fields.ofWord (wordXKK op x kk)).op = op := by
  apply BitVec.eq_of_getLsbD_eq; intro k hk
  have h : ¬ 12 + k < 8 := by omega
  have h' : ¬ 12 + k - 8 < 4 := by omega
  have e : 12 + k - 8 - 4 = k := by omega
  simp [Fields.ofWord, getLsbD_wordXKK, hk, h, h', e]

@[simp] theorem ofWord_wordXKK_x (op x : Nibble) (kk : Byte) : (Fields.ofWord (wordXKK op x kk)).x = x := by
  apply BitVec.eq_of_getLsbD_eq; intro k hk
  have h : ¬ 8 + k < 8 := by omega
  simp [Fields.ofWord, getLsbD_wordXKK, hk, h]

@[simp] theorem ofWord_wordXKK_kk (op x : Nibble) (kk : Byte) : (Fields.ofWord (wordXKK op x kk)).kk = kk := by
  apply BitVec.eq_of_getLsbD_eq; intro k hk
  simp [Fields.ofWord, getLsbD_wordXKK, hk]

@[simp] theorem ofWord_wordXYN_op (op x y n : Nibble) : (Fields.ofWord (wordXYN op x y n)).op = op := by
  apply BitVec.eq_of_getLsbD_eq; intro k hk
  have h : ¬ 12 + k < 4 := by omega
  have h' : ¬ 12 + k - 4 < 4 := by omega
  have h'' : ¬ 12 + k - 4 - 4 < 4 := by omega
  have e : 12 + k - 4 - 4 - 4 = k := by omega
  simp [Fields.ofWord, getLsbD_wordXYN, hk, h, h', h'', e]

@[simp] theorem ofWord_wordXYN_x (op x y n : Nibble) : (Fields.ofWord (wordXYN op x y n)).x = x := by
  apply BitVec.eq_of_getLsbD_eq; intro k hk
  have h : ¬ 8 + k < 4 := by omega
  have h' : ¬ 8 + k - 4 < 4 := by omega
  have e : 8 + k - 4 - 4 = k := by omega
  simp [Fields.ofWord, getLsbD_wordXYN, hk, h, h', e]

@[simp] theorem ofWord_wordXYN_y (op x y n : Nibble) : (Fields.ofWord (wordXYN op x y n)).y = y := by
  apply BitVec.eq_of_getLsbD_eq; intro k hk
  have h : ¬ 4 + k < 4 := by omega
  simp [Fields.ofWord, getLsbD_wordXYN, hk, h]

@[simp] theorem ofWord_wordXYN_n (op x y n : Nibble) : (Fields.ofWord (wordXYN op x y n)).n = n := by
  apply BitVec.eq_of_getLsbD_eq; intro k hk
  simp [Fields.ofWord, getLsbD_wordXYN, hk]

/-- The fields taken out of a word agree where they overlap (30_encoding.md R91). -/
theorem ofWord_wellFormed (w : Word) : (Fields.ofWord w).wellFormed = true := by
  simp only [Fields.wellFormed, Fields.kkAgrees, Fields.nnnAgrees, Bool.and_eq_true, beq_iff_eq]
  constructor <;> apply BitVec.eq_of_getLsbD_eq <;> intro k hk
  · rw [getLsbD_kk]
    by_cases h : k < 4
    · simp [Fields.ofWord, hk, h]
    · have h' : k - 4 < 4 := by omega
      have e : 4 + (k - 4) = k := by omega
      simp [Fields.ofWord, hk, h, h', e]
  · rw [getLsbD_nnn]
    by_cases h : k < 8
    · simp [Fields.ofWord, hk, h]
    · have h' : k - 8 < 4 := by omega
      have e : 8 + (k - 8) = k := by omega
      simp [Fields.ofWord, hk, h, h', e]

/-- A word is its top nibble and its address field. -/
theorem wordNNN_ofWord (w : Word) : wordNNN (Fields.ofWord w).op (Fields.ofWord w).nnn = w := by
  apply BitVec.eq_of_getLsbD_eq; intro k hk
  by_cases h : k < 12
  · simp [getLsbD_wordNNN, Fields.ofWord, h]
  · have h' : k - 12 < 4 := by omega
    have e : 12 + (k - 12) = k := by omega
    simp [getLsbD_wordNNN, Fields.ofWord, h, h', e]

/-- Format XKK is format NNN with the address field `{X, KK}`. -/
theorem wordXKK_eq_wordNNN (op x : Nibble) (kk : Byte) : wordXKK op x kk = wordNNN op (x ++ kk) := by
  apply BitVec.eq_of_getLsbD_eq; intro k hk
  simp only [getLsbD_wordXKK, getLsbD_wordNNN, getLsbD_nnn]
  split
  · rw [if_pos (by omega)]
  · split
    · rw [if_pos (by omega)]
    · rw [if_neg (by omega), Nat.sub_sub]

/-- Format XYN is format XKK with the immediate `{Y, N}`. -/
theorem wordXYN_eq_wordXKK (op x y n : Nibble) : wordXYN op x y n = wordXKK op x (y ++ n) := by
  apply BitVec.eq_of_getLsbD_eq; intro k hk
  simp only [getLsbD_wordXYN, getLsbD_wordXKK, getLsbD_kk]
  split
  · rw [if_pos (by omega)]
  · split
    · rw [if_pos (by omega)]
    · rw [if_neg (show ¬ k < 8 by omega), Nat.sub_sub]

/-- The two bytes of a word make it up again. -/
@[simp] theorem wordOfBytes_bytes (w : Word) : wordOfBytes (highByte w) (lowByte w) = w := by
  apply BitVec.eq_of_getLsbD_eq; intro k hk
  by_cases h : k < 8
  · simp [getLsbD_wordOfBytes, highByte, lowByte, h]
  · have h' : k - 8 < 8 := by omega
    have e : 8 + (k - 8) = k := by omega
    simp [getLsbD_wordOfBytes, highByte, lowByte, h, h', e]

/-- Masks meet a word of format NNN field by field. -/
theorem wordNNN_and (op op' : Nibble) (nnn nnn' : Addr12) :
    wordNNN op nnn &&& wordNNN op' nnn' = wordNNN (op &&& op') (nnn &&& nnn') := by
  apply BitVec.eq_of_getLsbD_eq; intro k hk
  by_cases h : k < 12 <;> simp [getLsbD_wordNNN, h]

/-- Masks meet a word of format XKK field by field. -/
theorem wordXKK_and (op x op' x' : Nibble) (kk kk' : Byte) :
    wordXKK op x kk &&& wordXKK op' x' kk' = wordXKK (op &&& op') (x &&& x') (kk &&& kk') := by
  apply BitVec.eq_of_getLsbD_eq; intro k hk
  by_cases h : k < 8 <;> by_cases h' : k - 8 < 4 <;> simp [getLsbD_wordXKK, h, h']

/-- Masks meet a word of format XYN field by field. -/
theorem wordXYN_and (op x y n op' x' y' n' : Nibble) :
    wordXYN op x y n &&& wordXYN op' x' y' n' = wordXYN (op &&& op') (x &&& x') (y &&& y') (n &&& n') := by
  apply BitVec.eq_of_getLsbD_eq; intro k hk
  by_cases h : k < 4 <;> by_cases h' : k - 4 < 4 <;> by_cases h'' : k - 4 - 4 < 4 <;>
    simp [getLsbD_wordXYN, h, h', h'']

end Sys2Proof
end

