-- ==== Sys2Proof/Laws/Memory.lean ====
section
/-! SUPPORT. The laws of memory: a read after a write, the canonical form, and runs of bytes. -/

namespace Sys2Proof.Machine

/-- A canonical list from `lo` on is canonical from any smaller bound. -/
theorem Memory.wfFrom_mono {lo lo' : Nat} (h : lo' ≤ lo) {m : Memory} (hm : Memory.wfFrom lo m = true) :
    Memory.wfFrom lo' m = true := by
  cases m with
  | nil => rfl
  | cons c m =>
    simp only [Memory.wfFrom, Bool.and_eq_true, decide_eq_true_eq] at hm ⊢
    exact ⟨⟨⟨by omega, hm.1.1.2⟩, hm.1.2⟩, hm.2⟩

/-- An address below every listed one reads as its reset contents. -/
theorem Memory.get_of_lt {lo : Nat} {m : Memory} (hm : Memory.wfFrom lo m = true) {a : Nat} (h : a < lo) :
    Memory.get m a = resetByte a := by
  induction m generalizing lo with
  | nil => rfl
  | cons c m ih =>
    obtain ⟨b, w⟩ := c
    simp only [Memory.wfFrom, Bool.and_eq_true, decide_eq_true_eq] at hm
    rw [Memory.get, if_neg (by omega), ih hm.2 (by omega)]

@[simp] theorem Memory.get_nil (a : Nat) : Memory.get [] a = resetByte a := rfl

theorem Memory.get_cons_ne {a c : Nat} (h : c ≠ a) (v : Byte) (m : Memory) :
    Memory.get (Memory.cons a v m) c = Memory.get m c := by
  unfold Memory.cons; split <;> simp [Memory.get, h]

theorem Memory.get_cons_self {a : Nat} {v : Byte} {m : Memory} (hm : Memory.wfFrom (a + 1) m = true) :
    Memory.get (Memory.cons a v m) a = v := by
  unfold Memory.cons
  split
  · next h => rw [Memory.get_of_lt hm (by omega), h]
  · simp [Memory.get]

theorem Memory.wfFrom_cons {lo a : Nat} {v : Byte} {m : Memory} (h : lo ≤ a) (ha : a < Config.memSize)
    (hm : Memory.wfFrom (a + 1) m = true) : Memory.wfFrom lo (Memory.cons a v m) = true := by
  unfold Memory.cons
  split
  · exact Memory.wfFrom_mono (by omega) hm
  · next hv =>
    simp only [Memory.wfFrom, Bool.and_eq_true, decide_eq_true_eq]
    exact ⟨⟨⟨h, ha⟩, hv⟩, hm⟩

/-- A write leaves every other address alone. -/
theorem Memory.get_set_of_ne {a c : Nat} (h : c ≠ a) (v : Byte) (m : Memory) :
    Memory.get (Memory.set m a v) c = Memory.get m c := by
  induction m with
  | nil => exact Memory.get_cons_ne h v []
  | cons d m ih =>
    obtain ⟨b, w⟩ := d
    unfold Memory.set
    split
    · exact Memory.get_cons_ne h v _
    · split
      · next hab => subst hab; rw [Memory.get_cons_ne h]; simp [Memory.get, h]
      · simp only [Memory.get, ih]

theorem Memory.get_set_self_from {lo a : Nat} {m : Memory} (hm : Memory.wfFrom lo m = true) (v : Byte) :
    Memory.get (Memory.set m a v) a = v := by
  induction m generalizing lo with
  | nil => exact Memory.get_cons_self (m := []) rfl
  | cons d m ih =>
    obtain ⟨b, w⟩ := d
    have hm' := hm
    simp only [Memory.wfFrom, Bool.and_eq_true, decide_eq_true_eq] at hm'
    unfold Memory.set
    split
    · next hab =>
      refine Memory.get_cons_self ?_
      simp only [Memory.wfFrom, Bool.and_eq_true, decide_eq_true_eq]
      exact ⟨⟨⟨by omega, hm'.1.1.2⟩, hm'.1.2⟩, hm'.2⟩
    · split
      · next hab => subst hab; exact Memory.get_cons_self hm'.2
      · next hab => rw [Memory.get, if_neg hab, ih hm'.2]

/-- A read after a write to the same address gives the value written. -/
theorem Memory.get_set_self {m : Memory} (hm : m.wf = true) (a : Nat) (v : Byte) :
    Memory.get (Memory.set m a v) a = v :=
  Memory.get_set_self_from hm v

theorem Memory.wfFrom_set {lo a : Nat} {m : Memory} (hm : Memory.wfFrom lo m = true) (h : lo ≤ a)
    (ha : a < Config.memSize) (v : Byte) : Memory.wfFrom lo (Memory.set m a v) = true := by
  induction m generalizing lo with
  | nil => exact Memory.wfFrom_cons h ha rfl
  | cons d m ih =>
    obtain ⟨b, w⟩ := d
    have hm' := hm
    simp only [Memory.wfFrom, Bool.and_eq_true, decide_eq_true_eq] at hm'
    unfold Memory.set
    split
    · next hab =>
      refine Memory.wfFrom_cons h ha ?_
      simp only [Memory.wfFrom, Bool.and_eq_true, decide_eq_true_eq]
      exact ⟨⟨⟨by omega, hm'.1.1.2⟩, hm'.1.2⟩, hm'.2⟩
    · split
      · next hab => subst hab; exact Memory.wfFrom_cons h ha hm'.2
      · next hab =>
        simp only [Memory.wfFrom, Bool.and_eq_true, decide_eq_true_eq]
        exact ⟨⟨⟨hm'.1.1.1, hm'.1.1.2⟩, hm'.1.2⟩, ih hm'.2 (by omega)⟩

/-- A write inside memory keeps the canonical form. -/
theorem Memory.set_wf {m : Memory} (hm : m.wf = true) {a : Nat} (ha : a < Config.memSize) (v : Byte) :
    (Memory.set m a v).wf = true :=
  Memory.wfFrom_set hm (Nat.zero_le a) ha v

/-- Canonical memories that read alike everywhere are equal, so equal memories are equal data. -/
theorem Memory.eq_of_get_eq {m n : Memory} {lo : Nat} (hm : Memory.wfFrom lo m = true) (hn : Memory.wfFrom lo n = true)
    (h : ∀ a, Memory.get m a = Memory.get n a) : m = n := by
  induction m generalizing n lo with
  | nil =>
    cases n with
    | nil => rfl
    | cons d n =>
      obtain ⟨b, w⟩ := d
      simp only [Memory.wfFrom, Bool.and_eq_true, decide_eq_true_eq] at hn
      exact absurd (by simpa [Memory.get] using (h b).symm) hn.1.2
  | cons c m ih =>
    obtain ⟨a, v⟩ := c
    have hm' := hm
    simp only [Memory.wfFrom, Bool.and_eq_true, decide_eq_true_eq] at hm'
    cases n with
    | nil => exact absurd (by simpa [Memory.get] using h a) hm'.1.2
    | cons d n =>
      obtain ⟨b, w⟩ := d
      have hn' := hn
      simp only [Memory.wfFrom, Bool.and_eq_true, decide_eq_true_eq] at hn'
      have reads : ∀ c, Memory.get ((a, v) :: m) c = if c = a then v else Memory.get m c := fun _ => rfl
      have reads' : ∀ c, Memory.get ((b, w) :: n) c = if c = b then w else Memory.get n c := fun _ => rfl
      have hab : a = b := by
        rcases Nat.lt_trichotomy a b with hlt | heq | hgt
        · have := h a
          rw [reads, if_pos rfl, reads', if_neg (by omega), Memory.get_of_lt hn'.2 (by omega)] at this
          exact absurd this hm'.1.2
        · exact heq
        · have := h b
          rw [reads, if_neg (by omega), reads', if_pos rfl, Memory.get_of_lt hm'.2 (by omega)] at this
          exact absurd this.symm hn'.1.2
      subst hab
      have hvw : v = w := by simpa [reads, reads'] using h a
      subst hvw
      refine congrArg _ (ih hm'.2 hn'.2 fun c => ?_)
      by_cases hc : c < a + 1
      · rw [Memory.get_of_lt hm'.2 hc, Memory.get_of_lt hn'.2 hc]
      · have := h c
        rwa [reads, reads', if_neg (by omega), if_neg (by omega)] at this

/-- A run of bytes written inside memory keeps the canonical form. -/
theorem storeBytes_wf {m : Memory} (hm : m.wf = true) {base : Nat} {bytes : List Byte}
    (h : base + bytes.length ≤ Config.memSize) : (storeBytes m base bytes).wf = true := by
  induction bytes generalizing m base with
  | nil => exact hm
  | cons v vs ih =>
    simp only [List.length_cons, Config.memSize] at h
    exact ih (Memory.set_wf hm (by simp only [Config.memSize]; omega) v) (by simp only [Config.memSize]; omega)

/-- An address outside the bytes written reads as before. -/
theorem get_storeBytes_outside {base a : Nat} {bytes : List Byte} (h : a < base ∨ base + bytes.length ≤ a) (m : Memory) :
    Memory.get (storeBytes m base bytes) a = Memory.get m a := by
  induction bytes generalizing m base with
  | nil => rfl
  | cons v vs ih =>
    simp only [List.length_cons] at h
    rw [storeBytes, ih (by omega), Memory.get_set_of_ne (by omega)]

/-- The byte at `base + k` after a run of bytes is written is byte `k` of the run. -/
theorem get_storeBytes_inside {m : Memory} (hm : m.wf = true) {base : Nat} {bytes : List Byte}
    (hin : base + bytes.length ≤ Config.memSize) {k : Nat} (hk : k < bytes.length) :
    Memory.get (storeBytes m base bytes) (base + k) = bytes[k] := by
  induction bytes generalizing m base k with
  | nil => simp at hk
  | cons v vs ih =>
    simp only [List.length_cons, Config.memSize] at hin hk
    have hset := Memory.set_wf hm (a := base) (by simp only [Config.memSize]; omega) v
    cases k with
    | zero => rw [storeBytes, get_storeBytes_outside (by omega)]; exact Memory.get_set_self hm base v
    | succ k =>
      have := ih hset (base := base + 1) (by simp only [Config.memSize]; omega) (k := k) (by omega)
      simpa [storeBytes, Nat.add_assoc, Nat.add_comm 1 k] using this

@[simp] theorem length_loadBytes (m : Memory) (base count : Nat) : (loadBytes m base count).length = count := by
  simp [loadBytes]

@[simp] theorem getElem_loadBytes (m : Memory) (base count k : Nat) (h : k < (loadBytes m base count).length) :
    (loadBytes m base count)[k] = Memory.get m (base + k) := by
  simp [loadBytes]

/-- The range check passes exactly when nothing is accessed or the last address is inside memory. -/
theorem checkRange_eq_none_iff (base count : Nat) (access : Access) :
    checkRange base count access = none ↔ count = 0 ∨ base + count ≤ 4096 := by
  unfold checkRange Config.memSize
  split <;> simp <;> omega

/-- When the range check fails it reports the first address that is out of range. -/
theorem checkRange_of_outside {base count : Nat} (h : 0 < count) (h' : 4096 < base + count) (access : Access) :
    checkRange base count access = some (.outOfBounds (max base 4096) access) := by
  unfold checkRange Config.memSize
  rw [if_pos (by omega)]

/-- After the range check every single-byte read of the range succeeds, with the byte `loadBytes` gives. -/
theorem memRead_of_checkRange {m : Memory} {base count k : Nat} {access : Access} (h : checkRange base count access = none)
    (hk : k < count) : memRead m (base + k) access = .ok (Memory.get m (base + k)) := by
  rw [checkRange_eq_none_iff] at h
  exact if_pos (show base + k < 4096 by omega)

end Sys2Proof.Machine
end

