-- ==== Sys2Proof/Laws/State.lean ====
section
/-! SUPPORT. What each named update of the state does to each field, and to the reads of a register, a key and a stack slot:
one lemma per update and field, so that no proof unfolds a record update. -/

namespace Sys2Proof.Machine

variable (s : State)

@[simp] theorem State.setReg_mem (k : Nibble) (v : Byte) : (s.setReg k v).mem = s.mem := rfl
@[simp] theorem State.setReg_regs (k : Nibble) (v : Byte) : (s.setReg k v).regs = s.regs.set k.toNat v k.isLt := rfl
@[simp] theorem State.setReg_i (k : Nibble) (v : Byte) : (s.setReg k v).i = s.i := rfl
@[simp] theorem State.setReg_pc (k : Nibble) (v : Byte) : (s.setReg k v).pc = s.pc := rfl
@[simp] theorem State.setReg_stack (k : Nibble) (v : Byte) : (s.setReg k v).stack = s.stack := rfl
@[simp] theorem State.setReg_sp (k : Nibble) (v : Byte) : (s.setReg k v).sp = s.sp := rfl
@[simp] theorem State.setReg_dt (k : Nibble) (v : Byte) : (s.setReg k v).dt = s.dt := rfl
@[simp] theorem State.setReg_st (k : Nibble) (v : Byte) : (s.setReg k v).st = s.st := rfl
@[simp] theorem State.setReg_fb (k : Nibble) (v : Byte) : (s.setReg k v).fb = s.fb := rfl
@[simp] theorem State.setReg_keys (k : Nibble) (v : Byte) : (s.setReg k v).keys = s.keys := rfl
@[simp] theorem State.setReg_mode (k : Nibble) (v : Byte) : (s.setReg k v).mode = s.mode := rfl
@[simp] theorem State.setReg_waitX (k : Nibble) (v : Byte) : (s.setReg k v).waitX = s.waitX := rfl
@[simp] theorem State.setReg_drawOccurred (k : Nibble) (v : Byte) : (s.setReg k v).drawOccurred = s.drawOccurred := rfl
@[simp] theorem State.setReg_draws (k : Nibble) (v : Byte) : (s.setReg k v).draws = s.draws := rfl
@[simp] theorem State.setReg_inputs (k : Nibble) (v : Byte) : (s.setReg k v).inputs = s.inputs := rfl
@[simp] theorem State.setReg_arrivals (k : Nibble) (v : Byte) : (s.setReg k v).arrivals = s.arrivals := rfl
@[simp] theorem State.setReg_key (k : Nibble) (v : Byte) (j : Nibble) : (s.setReg k v).key j = s.key j := rfl
@[simp] theorem State.setReg_stackSlot (k : Nibble) (v : Byte) (j : Nat) : (s.setReg k v).stackSlot j = s.stackSlot j := rfl

@[simp] theorem State.setFlag_mem (b : Bool) : (s.setFlag b).mem = s.mem := rfl
@[simp] theorem State.setFlag_regs (b : Bool) : (s.setFlag b).regs = s.regs.set 15 (flagByte b) := rfl
@[simp] theorem State.setFlag_i (b : Bool) : (s.setFlag b).i = s.i := rfl
@[simp] theorem State.setFlag_pc (b : Bool) : (s.setFlag b).pc = s.pc := rfl
@[simp] theorem State.setFlag_stack (b : Bool) : (s.setFlag b).stack = s.stack := rfl
@[simp] theorem State.setFlag_sp (b : Bool) : (s.setFlag b).sp = s.sp := rfl
@[simp] theorem State.setFlag_dt (b : Bool) : (s.setFlag b).dt = s.dt := rfl
@[simp] theorem State.setFlag_st (b : Bool) : (s.setFlag b).st = s.st := rfl
@[simp] theorem State.setFlag_fb (b : Bool) : (s.setFlag b).fb = s.fb := rfl
@[simp] theorem State.setFlag_keys (b : Bool) : (s.setFlag b).keys = s.keys := rfl
@[simp] theorem State.setFlag_mode (b : Bool) : (s.setFlag b).mode = s.mode := rfl
@[simp] theorem State.setFlag_waitX (b : Bool) : (s.setFlag b).waitX = s.waitX := rfl
@[simp] theorem State.setFlag_drawOccurred (b : Bool) : (s.setFlag b).drawOccurred = s.drawOccurred := rfl
@[simp] theorem State.setFlag_draws (b : Bool) : (s.setFlag b).draws = s.draws := rfl
@[simp] theorem State.setFlag_inputs (b : Bool) : (s.setFlag b).inputs = s.inputs := rfl
@[simp] theorem State.setFlag_arrivals (b : Bool) : (s.setFlag b).arrivals = s.arrivals := rfl
@[simp] theorem State.setFlag_key (b : Bool) (j : Nibble) : (s.setFlag b).key j = s.key j := rfl
@[simp] theorem State.setFlag_stackSlot (b : Bool) (j : Nat) : (s.setFlag b).stackSlot j = s.stackSlot j := rfl

@[simp] theorem State.setFlagged_mem (x : Nibble) (b : Bool) (v : Byte) : (s.setFlagged x b v).mem = s.mem := rfl
@[simp] theorem State.setFlagged_regs (x : Nibble) (b : Bool) (v : Byte) : (s.setFlagged x b v).regs = (s.setFlag b).regs.set x.toNat v x.isLt := rfl
@[simp] theorem State.setFlagged_i (x : Nibble) (b : Bool) (v : Byte) : (s.setFlagged x b v).i = s.i := rfl
@[simp] theorem State.setFlagged_pc (x : Nibble) (b : Bool) (v : Byte) : (s.setFlagged x b v).pc = s.pc := rfl
@[simp] theorem State.setFlagged_stack (x : Nibble) (b : Bool) (v : Byte) : (s.setFlagged x b v).stack = s.stack := rfl
@[simp] theorem State.setFlagged_sp (x : Nibble) (b : Bool) (v : Byte) : (s.setFlagged x b v).sp = s.sp := rfl
@[simp] theorem State.setFlagged_dt (x : Nibble) (b : Bool) (v : Byte) : (s.setFlagged x b v).dt = s.dt := rfl
@[simp] theorem State.setFlagged_st (x : Nibble) (b : Bool) (v : Byte) : (s.setFlagged x b v).st = s.st := rfl
@[simp] theorem State.setFlagged_fb (x : Nibble) (b : Bool) (v : Byte) : (s.setFlagged x b v).fb = s.fb := rfl
@[simp] theorem State.setFlagged_keys (x : Nibble) (b : Bool) (v : Byte) : (s.setFlagged x b v).keys = s.keys := rfl
@[simp] theorem State.setFlagged_mode (x : Nibble) (b : Bool) (v : Byte) : (s.setFlagged x b v).mode = s.mode := rfl
@[simp] theorem State.setFlagged_waitX (x : Nibble) (b : Bool) (v : Byte) : (s.setFlagged x b v).waitX = s.waitX := rfl
@[simp] theorem State.setFlagged_drawOccurred (x : Nibble) (b : Bool) (v : Byte) : (s.setFlagged x b v).drawOccurred = s.drawOccurred := rfl
@[simp] theorem State.setFlagged_draws (x : Nibble) (b : Bool) (v : Byte) : (s.setFlagged x b v).draws = s.draws := rfl
@[simp] theorem State.setFlagged_inputs (x : Nibble) (b : Bool) (v : Byte) : (s.setFlagged x b v).inputs = s.inputs := rfl
@[simp] theorem State.setFlagged_arrivals (x : Nibble) (b : Bool) (v : Byte) : (s.setFlagged x b v).arrivals = s.arrivals := rfl
@[simp] theorem State.setFlagged_key (x : Nibble) (b : Bool) (v : Byte) (j : Nibble) : (s.setFlagged x b v).key j = s.key j := rfl
@[simp] theorem State.setFlagged_stackSlot (x : Nibble) (b : Bool) (v : Byte) (j : Nat) : (s.setFlagged x b v).stackSlot j = s.stackSlot j := rfl

@[simp] theorem State.setIndex_mem (v : Word) : (s.setIndex v).mem = s.mem := rfl
@[simp] theorem State.setIndex_regs (v : Word) : (s.setIndex v).regs = s.regs := rfl
@[simp] theorem State.setIndex_i (v : Word) : (s.setIndex v).i = v := rfl
@[simp] theorem State.setIndex_pc (v : Word) : (s.setIndex v).pc = s.pc := rfl
@[simp] theorem State.setIndex_stack (v : Word) : (s.setIndex v).stack = s.stack := rfl
@[simp] theorem State.setIndex_sp (v : Word) : (s.setIndex v).sp = s.sp := rfl
@[simp] theorem State.setIndex_dt (v : Word) : (s.setIndex v).dt = s.dt := rfl
@[simp] theorem State.setIndex_st (v : Word) : (s.setIndex v).st = s.st := rfl
@[simp] theorem State.setIndex_fb (v : Word) : (s.setIndex v).fb = s.fb := rfl
@[simp] theorem State.setIndex_keys (v : Word) : (s.setIndex v).keys = s.keys := rfl
@[simp] theorem State.setIndex_mode (v : Word) : (s.setIndex v).mode = s.mode := rfl
@[simp] theorem State.setIndex_waitX (v : Word) : (s.setIndex v).waitX = s.waitX := rfl
@[simp] theorem State.setIndex_drawOccurred (v : Word) : (s.setIndex v).drawOccurred = s.drawOccurred := rfl
@[simp] theorem State.setIndex_draws (v : Word) : (s.setIndex v).draws = s.draws := rfl
@[simp] theorem State.setIndex_inputs (v : Word) : (s.setIndex v).inputs = s.inputs := rfl
@[simp] theorem State.setIndex_arrivals (v : Word) : (s.setIndex v).arrivals = s.arrivals := rfl
@[simp] theorem State.setIndex_reg (v : Word) (j : Nibble) : (s.setIndex v).reg j = s.reg j := rfl
@[simp] theorem State.setIndex_key (v : Word) (j : Nibble) : (s.setIndex v).key j = s.key j := rfl
@[simp] theorem State.setIndex_stackSlot (v : Word) (j : Nat) : (s.setIndex v).stackSlot j = s.stackSlot j := rfl

@[simp] theorem State.jump_mem (t : Word) : (s.jump t).mem = s.mem := rfl
@[simp] theorem State.jump_regs (t : Word) : (s.jump t).regs = s.regs := rfl
@[simp] theorem State.jump_i (t : Word) : (s.jump t).i = s.i := rfl
@[simp] theorem State.jump_pc (t : Word) : (s.jump t).pc = t := rfl
@[simp] theorem State.jump_stack (t : Word) : (s.jump t).stack = s.stack := rfl
@[simp] theorem State.jump_sp (t : Word) : (s.jump t).sp = s.sp := rfl
@[simp] theorem State.jump_dt (t : Word) : (s.jump t).dt = s.dt := rfl
@[simp] theorem State.jump_st (t : Word) : (s.jump t).st = s.st := rfl
@[simp] theorem State.jump_fb (t : Word) : (s.jump t).fb = s.fb := rfl
@[simp] theorem State.jump_keys (t : Word) : (s.jump t).keys = s.keys := rfl
@[simp] theorem State.jump_mode (t : Word) : (s.jump t).mode = s.mode := rfl
@[simp] theorem State.jump_waitX (t : Word) : (s.jump t).waitX = s.waitX := rfl
@[simp] theorem State.jump_drawOccurred (t : Word) : (s.jump t).drawOccurred = s.drawOccurred := rfl
@[simp] theorem State.jump_draws (t : Word) : (s.jump t).draws = s.draws := rfl
@[simp] theorem State.jump_inputs (t : Word) : (s.jump t).inputs = s.inputs := rfl
@[simp] theorem State.jump_arrivals (t : Word) : (s.jump t).arrivals = s.arrivals := rfl
@[simp] theorem State.jump_reg (t : Word) (j : Nibble) : (s.jump t).reg j = s.reg j := rfl
@[simp] theorem State.jump_key (t : Word) (j : Nibble) : (s.jump t).key j = s.key j := rfl
@[simp] theorem State.jump_stackSlot (t : Word) (j : Nat) : (s.jump t).stackSlot j = s.stackSlot j := rfl

@[simp] theorem State.advance_mem : (s.advance).mem = s.mem := rfl
@[simp] theorem State.advance_regs : (s.advance).regs = s.regs := rfl
@[simp] theorem State.advance_i : (s.advance).i = s.i := rfl
@[simp] theorem State.advance_pc : (s.advance).pc = s.pc + 2 := rfl
@[simp] theorem State.advance_stack : (s.advance).stack = s.stack := rfl
@[simp] theorem State.advance_sp : (s.advance).sp = s.sp := rfl
@[simp] theorem State.advance_dt : (s.advance).dt = s.dt := rfl
@[simp] theorem State.advance_st : (s.advance).st = s.st := rfl
@[simp] theorem State.advance_fb : (s.advance).fb = s.fb := rfl
@[simp] theorem State.advance_keys : (s.advance).keys = s.keys := rfl
@[simp] theorem State.advance_mode : (s.advance).mode = s.mode := rfl
@[simp] theorem State.advance_waitX : (s.advance).waitX = s.waitX := rfl
@[simp] theorem State.advance_drawOccurred : (s.advance).drawOccurred = s.drawOccurred := rfl
@[simp] theorem State.advance_draws : (s.advance).draws = s.draws := rfl
@[simp] theorem State.advance_inputs : (s.advance).inputs = s.inputs := rfl
@[simp] theorem State.advance_arrivals : (s.advance).arrivals = s.arrivals := rfl
@[simp] theorem State.advance_reg (j : Nibble) : (s.advance).reg j = s.reg j := rfl
@[simp] theorem State.advance_key (j : Nibble) : (s.advance).key j = s.key j := rfl
@[simp] theorem State.advance_stackSlot (j : Nat) : (s.advance).stackSlot j = s.stackSlot j := rfl

@[simp] theorem State.skipIf_mem (b : Bool) : (s.skipIf b).mem = s.mem := rfl
@[simp] theorem State.skipIf_regs (b : Bool) : (s.skipIf b).regs = s.regs := rfl
@[simp] theorem State.skipIf_i (b : Bool) : (s.skipIf b).i = s.i := rfl
@[simp] theorem State.skipIf_pc (b : Bool) : (s.skipIf b).pc = s.pc + (if b then 4 else 2) := rfl
@[simp] theorem State.skipIf_stack (b : Bool) : (s.skipIf b).stack = s.stack := rfl
@[simp] theorem State.skipIf_sp (b : Bool) : (s.skipIf b).sp = s.sp := rfl
@[simp] theorem State.skipIf_dt (b : Bool) : (s.skipIf b).dt = s.dt := rfl
@[simp] theorem State.skipIf_st (b : Bool) : (s.skipIf b).st = s.st := rfl
@[simp] theorem State.skipIf_fb (b : Bool) : (s.skipIf b).fb = s.fb := rfl
@[simp] theorem State.skipIf_keys (b : Bool) : (s.skipIf b).keys = s.keys := rfl
@[simp] theorem State.skipIf_mode (b : Bool) : (s.skipIf b).mode = s.mode := rfl
@[simp] theorem State.skipIf_waitX (b : Bool) : (s.skipIf b).waitX = s.waitX := rfl
@[simp] theorem State.skipIf_drawOccurred (b : Bool) : (s.skipIf b).drawOccurred = s.drawOccurred := rfl
@[simp] theorem State.skipIf_draws (b : Bool) : (s.skipIf b).draws = s.draws := rfl
@[simp] theorem State.skipIf_inputs (b : Bool) : (s.skipIf b).inputs = s.inputs := rfl
@[simp] theorem State.skipIf_arrivals (b : Bool) : (s.skipIf b).arrivals = s.arrivals := rfl
@[simp] theorem State.skipIf_reg (b : Bool) (j : Nibble) : (s.skipIf b).reg j = s.reg j := rfl
@[simp] theorem State.skipIf_key (b : Bool) (j : Nibble) : (s.skipIf b).key j = s.key j := rfl
@[simp] theorem State.skipIf_stackSlot (b : Bool) (j : Nat) : (s.skipIf b).stackSlot j = s.stackSlot j := rfl

@[simp] theorem State.setDelay_mem (v : Byte) : (s.setDelay v).mem = s.mem := rfl
@[simp] theorem State.setDelay_regs (v : Byte) : (s.setDelay v).regs = s.regs := rfl
@[simp] theorem State.setDelay_i (v : Byte) : (s.setDelay v).i = s.i := rfl
@[simp] theorem State.setDelay_pc (v : Byte) : (s.setDelay v).pc = s.pc := rfl
@[simp] theorem State.setDelay_stack (v : Byte) : (s.setDelay v).stack = s.stack := rfl
@[simp] theorem State.setDelay_sp (v : Byte) : (s.setDelay v).sp = s.sp := rfl
@[simp] theorem State.setDelay_dt (v : Byte) : (s.setDelay v).dt = v := rfl
@[simp] theorem State.setDelay_st (v : Byte) : (s.setDelay v).st = s.st := rfl
@[simp] theorem State.setDelay_fb (v : Byte) : (s.setDelay v).fb = s.fb := rfl
@[simp] theorem State.setDelay_keys (v : Byte) : (s.setDelay v).keys = s.keys := rfl
@[simp] theorem State.setDelay_mode (v : Byte) : (s.setDelay v).mode = s.mode := rfl
@[simp] theorem State.setDelay_waitX (v : Byte) : (s.setDelay v).waitX = s.waitX := rfl
@[simp] theorem State.setDelay_drawOccurred (v : Byte) : (s.setDelay v).drawOccurred = s.drawOccurred := rfl
@[simp] theorem State.setDelay_draws (v : Byte) : (s.setDelay v).draws = s.draws := rfl
@[simp] theorem State.setDelay_inputs (v : Byte) : (s.setDelay v).inputs = s.inputs := rfl
@[simp] theorem State.setDelay_arrivals (v : Byte) : (s.setDelay v).arrivals = s.arrivals := rfl
@[simp] theorem State.setDelay_reg (v : Byte) (j : Nibble) : (s.setDelay v).reg j = s.reg j := rfl
@[simp] theorem State.setDelay_key (v : Byte) (j : Nibble) : (s.setDelay v).key j = s.key j := rfl
@[simp] theorem State.setDelay_stackSlot (v : Byte) (j : Nat) : (s.setDelay v).stackSlot j = s.stackSlot j := rfl

@[simp] theorem State.setSound_mem (v : Byte) : (s.setSound v).mem = s.mem := rfl
@[simp] theorem State.setSound_regs (v : Byte) : (s.setSound v).regs = s.regs := rfl
@[simp] theorem State.setSound_i (v : Byte) : (s.setSound v).i = s.i := rfl
@[simp] theorem State.setSound_pc (v : Byte) : (s.setSound v).pc = s.pc := rfl
@[simp] theorem State.setSound_stack (v : Byte) : (s.setSound v).stack = s.stack := rfl
@[simp] theorem State.setSound_sp (v : Byte) : (s.setSound v).sp = s.sp := rfl
@[simp] theorem State.setSound_dt (v : Byte) : (s.setSound v).dt = s.dt := rfl
@[simp] theorem State.setSound_st (v : Byte) : (s.setSound v).st = v := rfl
@[simp] theorem State.setSound_fb (v : Byte) : (s.setSound v).fb = s.fb := rfl
@[simp] theorem State.setSound_keys (v : Byte) : (s.setSound v).keys = s.keys := rfl
@[simp] theorem State.setSound_mode (v : Byte) : (s.setSound v).mode = s.mode := rfl
@[simp] theorem State.setSound_waitX (v : Byte) : (s.setSound v).waitX = s.waitX := rfl
@[simp] theorem State.setSound_drawOccurred (v : Byte) : (s.setSound v).drawOccurred = s.drawOccurred := rfl
@[simp] theorem State.setSound_draws (v : Byte) : (s.setSound v).draws = s.draws := rfl
@[simp] theorem State.setSound_inputs (v : Byte) : (s.setSound v).inputs = s.inputs := rfl
@[simp] theorem State.setSound_arrivals (v : Byte) : (s.setSound v).arrivals = s.arrivals := rfl
@[simp] theorem State.setSound_reg (v : Byte) (j : Nibble) : (s.setSound v).reg j = s.reg j := rfl
@[simp] theorem State.setSound_key (v : Byte) (j : Nibble) : (s.setSound v).key j = s.key j := rfl
@[simp] theorem State.setSound_stackSlot (v : Byte) (j : Nat) : (s.setSound v).stackSlot j = s.stackSlot j := rfl

@[simp] theorem State.setKey_mem (k : Nibble) (b : Bool) : (s.setKey k b).mem = s.mem := rfl
@[simp] theorem State.setKey_regs (k : Nibble) (b : Bool) : (s.setKey k b).regs = s.regs := rfl
@[simp] theorem State.setKey_i (k : Nibble) (b : Bool) : (s.setKey k b).i = s.i := rfl
@[simp] theorem State.setKey_pc (k : Nibble) (b : Bool) : (s.setKey k b).pc = s.pc := rfl
@[simp] theorem State.setKey_stack (k : Nibble) (b : Bool) : (s.setKey k b).stack = s.stack := rfl
@[simp] theorem State.setKey_sp (k : Nibble) (b : Bool) : (s.setKey k b).sp = s.sp := rfl
@[simp] theorem State.setKey_dt (k : Nibble) (b : Bool) : (s.setKey k b).dt = s.dt := rfl
@[simp] theorem State.setKey_st (k : Nibble) (b : Bool) : (s.setKey k b).st = s.st := rfl
@[simp] theorem State.setKey_fb (k : Nibble) (b : Bool) : (s.setKey k b).fb = s.fb := rfl
@[simp] theorem State.setKey_keys (k : Nibble) (b : Bool) : (s.setKey k b).keys = s.keys.set k.toNat b k.isLt := rfl
@[simp] theorem State.setKey_mode (k : Nibble) (b : Bool) : (s.setKey k b).mode = s.mode := rfl
@[simp] theorem State.setKey_waitX (k : Nibble) (b : Bool) : (s.setKey k b).waitX = s.waitX := rfl
@[simp] theorem State.setKey_drawOccurred (k : Nibble) (b : Bool) : (s.setKey k b).drawOccurred = s.drawOccurred := rfl
@[simp] theorem State.setKey_draws (k : Nibble) (b : Bool) : (s.setKey k b).draws = s.draws := rfl
@[simp] theorem State.setKey_inputs (k : Nibble) (b : Bool) : (s.setKey k b).inputs = s.inputs := rfl
@[simp] theorem State.setKey_arrivals (k : Nibble) (b : Bool) : (s.setKey k b).arrivals = s.arrivals := rfl
@[simp] theorem State.setKey_reg (k : Nibble) (b : Bool) (j : Nibble) : (s.setKey k b).reg j = s.reg j := rfl
@[simp] theorem State.setKey_stackSlot (k : Nibble) (b : Bool) (j : Nat) : (s.setKey k b).stackSlot j = s.stackSlot j := rfl

@[simp] theorem State.countDraw_mem : (s.countDraw).mem = s.mem := rfl
@[simp] theorem State.countDraw_regs : (s.countDraw).regs = s.regs := rfl
@[simp] theorem State.countDraw_i : (s.countDraw).i = s.i := rfl
@[simp] theorem State.countDraw_pc : (s.countDraw).pc = s.pc := rfl
@[simp] theorem State.countDraw_stack : (s.countDraw).stack = s.stack := rfl
@[simp] theorem State.countDraw_sp : (s.countDraw).sp = s.sp := rfl
@[simp] theorem State.countDraw_dt : (s.countDraw).dt = s.dt := rfl
@[simp] theorem State.countDraw_st : (s.countDraw).st = s.st := rfl
@[simp] theorem State.countDraw_fb : (s.countDraw).fb = s.fb := rfl
@[simp] theorem State.countDraw_keys : (s.countDraw).keys = s.keys := rfl
@[simp] theorem State.countDraw_mode : (s.countDraw).mode = s.mode := rfl
@[simp] theorem State.countDraw_waitX : (s.countDraw).waitX = s.waitX := rfl
@[simp] theorem State.countDraw_drawOccurred : (s.countDraw).drawOccurred = s.drawOccurred := rfl
@[simp] theorem State.countDraw_draws : (s.countDraw).draws = s.draws + 1 := rfl
@[simp] theorem State.countDraw_inputs : (s.countDraw).inputs = s.inputs := rfl
@[simp] theorem State.countDraw_arrivals : (s.countDraw).arrivals = s.arrivals := rfl
@[simp] theorem State.countDraw_reg (j : Nibble) : (s.countDraw).reg j = s.reg j := rfl
@[simp] theorem State.countDraw_key (j : Nibble) : (s.countDraw).key j = s.key j := rfl
@[simp] theorem State.countDraw_stackSlot (j : Nat) : (s.countDraw).stackSlot j = s.stackSlot j := rfl

/-- Reading a register after writing one. -/
theorem State.setReg_reg (k j : Nibble) (v : Byte) : (s.setReg k v).reg j = if j = k then v else s.reg j := by
  simp only [State.reg, State.setReg, Vector.getElem_set]
  by_cases h : j = k
  · simp [h]
  · simp [h, Ne.symm (fun e => h (BitVec.eq_of_toNat_eq e) : ¬ j.toNat = k.toNat)]

@[simp] theorem State.setReg_reg_self (k : Nibble) (v : Byte) : (s.setReg k v).reg k = v := by simp [State.setReg_reg]

@[simp] theorem State.setReg_reg_of_ne {k j : Nibble} (h : j ≠ k) (v : Byte) : (s.setReg k v).reg j = s.reg j := by
  simp [State.setReg_reg, h]

/-- Reading a register after the flag side effect. -/
theorem State.setFlag_reg (b : Bool) (j : Nibble) : (s.setFlag b).reg j = if j = 15 then flagByte b else s.reg j :=
  State.setReg_reg s 15 j _

/-- Reading a register after a flag and a result are written, in that order. -/
theorem State.setFlagged_reg (x j : Nibble) (b : Bool) (v : Byte) :
    (s.setFlagged x b v).reg j = if j = x then v else if j = 15 then flagByte b else s.reg j := by
  rw [State.setFlagged, State.setReg_reg, State.setFlag_reg]

@[simp] theorem State.setFlagged_reg_self (x : Nibble) (b : Bool) (v : Byte) : (s.setFlagged x b v).reg x = v := by
  simp [State.setFlagged_reg]

theorem State.setFlagged_reg_flag {x : Nibble} (h : x ≠ 15) (b : Bool) (v : Byte) :
    (s.setFlagged x b v).reg 15 = flagByte b := by
  rw [State.setFlagged_reg, if_neg (Ne.symm h), if_pos rfl]

theorem State.setFlagged_reg_other {x j : Nibble} (h : j ≠ x) (h' : j ≠ 15) (b : Bool) (v : Byte) :
    (s.setFlagged x b v).reg j = s.reg j := by
  rw [State.setFlagged_reg, if_neg h, if_neg h']

/-- Reading a key after writing one. -/
theorem State.setKey_key (k j : Nibble) (b : Bool) : (s.setKey k b).key j = if j = k then b else s.key j := by
  simp only [State.key, State.setKey, Vector.getElem_set]
  by_cases h : j = k
  · simp [h]
  · simp [h, Ne.symm (fun e => h (BitVec.eq_of_toNat_eq e) : ¬ j.toNat = k.toNat)]

/-- Two register files that agree at every selector are equal. -/
theorem regs_eq_of_reg_eq {s t : State} (h : ∀ j, t.reg j = s.reg j) : t.regs = s.regs := by
  apply Vector.ext
  intro k hk
  simpa [State.reg, Nat.mod_eq_of_lt hk] using h (BitVec.ofNat 4 k)

end Sys2Proof.Machine
end

