-- ==== Sys2Proof/Laws/Ops.lean ====
section
/-! SUPPORT. The laws of the call stack and of the register block: what each shared operation can do, said once. -/

namespace Sys2Proof.Machine

/-- A push below the full depth: the pointer goes up by one and the new top slot holds the value. -/
theorem push_of_lt {s : State} (h : s.sp.val < 16) (v : Word) :
    ∃ t, s.push v = .ok t ∧ t.sp.val = s.sp.val + 1 ∧ t.stackSlot t.sp.val = v ∧
      (∀ k, 1 ≤ k → k ≤ 16 → k ≠ t.sp.val → t.stackSlot k = s.stackSlot k) ∧
      t = { s with sp := t.sp, stack := t.stack } := by
  refine ⟨_, dif_pos h, rfl, ?_, ?_, rfl⟩
  · simp [State.stackSlot, Vector.getD, h]
  · intro k h1 h16 hk
    have h1' : k - 1 < 16 := by omega
    have hne : s.sp.val ≠ k - 1 := by simp at hk; omega
    simp [State.stackSlot, Vector.getD, h1', hne]

/-- A push on a full stack overflows. -/
theorem push_of_full {s : State} (h : s.sp.val = 16) (v : Word) : s.push v = .error .stackOverflow :=
  dif_neg (by simp [h])

/-- A pop from a stack that is not empty: the top slot is read, the pointer goes down by one, the slots keep their values. -/
theorem pop_of_pos {s : State} (h : s.sp.val ≠ 0) :
    ∃ t, s.pop = .ok (s.stackSlot s.sp.val, t) ∧ t.sp.val + 1 = s.sp.val ∧ t = { s with sp := t.sp } :=
  ⟨_, if_neg h, by simp only; omega, rfl⟩

/-- A pop from an empty stack underflows. -/
theorem pop_of_empty {s : State} (h : s.sp.val = 0) : s.pop = .error .stackUnderflow := if_pos h

/-- A slot inside the stack array is its element. -/
theorem stackSlot_succ (s : State) {k : Nat} (h : k < 16) : s.stackSlot (k + 1) = s.stack[k] := by
  simp [State.stackSlot, Vector.getD, h]

/-- The block written from register `k` on: register `j` takes its value of the list, every other register keeps its own. -/
theorem getElem_setRegsFrom (regs : Vector Byte 16) (k : Nat) (vs : List Byte) {j : Nat} (hj : j < 16) :
    (setRegsFrom regs k vs)[j] = if h : k ≤ j ∧ j - k < vs.length then vs[j - k]'h.2 else regs[j] := by
  induction vs generalizing regs k with
  | nil => simp [setRegsFrom]
  | cons v vs ih =>
    rw [setRegsFrom, ih]
    by_cases h1 : k + 1 ≤ j ∧ j - (k + 1) < vs.length
    · rw [dif_pos h1, dif_pos (by simp only [List.length_cons]; omega)]
      have : j - k = (j - (k + 1)) + 1 := by omega
      simp [this]
    · rw [dif_neg h1]
      by_cases h2 : j = k
      · subst h2; simp
      · rw [dif_neg (by simp only [List.length_cons]; omega)]
        rw [Vector.getElem_setIfInBounds]
        simp [Ne.symm h2]

@[simp] theorem length_regsUpTo (s : State) (x : Nibble) : (s.regsUpTo x).length = x.toNat + 1 := by
  have := x.isLt
  simp [State.regsUpTo, regCount]; omega

/-- Byte `k` of the block V0..VX is `x[k]`. -/
theorem getElem_regsUpTo (s : State) (x : Nibble) {k : Nat} (h : k < (s.regsUpTo x).length) :
    (s.regsUpTo x)[k] = s.reg (BitVec.ofNat 4 k) := by
  have hx := x.isLt
  have h' := h
  rw [length_regsUpTo] at h'
  have hk : k % 16 = k := by omega
  simp [State.regsUpTo, State.reg, hk]

/-- The flag of a decided condition. -/
theorem flagByte_decide (p : Prop) [Decidable p] : flagByte (decide p) = if p then 1 else 0 := by
  by_cases h : p <;> simp [flagByte, h]

@[simp] theorem length_bcdDigits (v : Byte) : (bcdDigits v).length = 3 := rfl

end Sys2Proof.Machine
end

