-- ==== Sys2Proof/Laws/Step.lean ====
section
/-! SUPPORT. What the fetch, the step request, the stores at `I` and the step can do, said once each. -/

namespace Sys2Proof.Machine

/-- The fetch succeeds exactly below 0xFFF, with the big-endian word at `pc` (20_memory.md R60). -/
theorem fetch_of_lt {s : State} (h : s.pc.toNat < 4095) :
    fetch s = .ok (wordOfBytes (Memory.get s.mem s.pc.toNat) (Memory.get s.mem (s.pc.toNat + 1))) := by
  have h1 : memRead s.mem s.pc.toNat .fetch = .ok (Memory.get s.mem s.pc.toNat) := if_pos (show s.pc.toNat < 4096 by omega)
  have h2 : memRead s.mem (s.pc.toNat + 1) .fetch = .ok (Memory.get s.mem (s.pc.toNat + 1)) :=
    if_pos (show s.pc.toNat + 1 < 4096 by omega)
  simp only [fetch, h1, h2]

/-- At 0xFFF the low byte is outside memory (20_memory.md R60). -/
theorem fetch_of_eq {s : State} (h : s.pc.toNat = 4095) : fetch s = .error (.outOfBounds 4096 .fetch) := by
  have h1 : memRead s.mem s.pc.toNat .fetch = .ok (Memory.get s.mem s.pc.toNat) := if_pos (show s.pc.toNat < 4096 by omega)
  have h2 : memRead s.mem (s.pc.toNat + 1) .fetch = .error (.outOfBounds (s.pc.toNat + 1) .fetch) :=
    if_neg (show ¬ s.pc.toNat + 1 < 4096 by omega)
  rw [h] at h1 h2
  simp only [fetch, h, h1, h2]

/-- Above 0xFFF the high byte is outside memory (20_memory.md R60). -/
theorem fetch_of_gt {s : State} (h : 4095 < s.pc.toNat) : fetch s = .error (.outOfBounds s.pc.toNat .fetch) := by
  have h1 : memRead s.mem s.pc.toNat .fetch = .error (.outOfBounds s.pc.toNat .fetch) :=
    if_neg (show ¬ s.pc.toNat < 4096 by omega)
  simp only [fetch, h1]

/-- A fetch that succeeds came from below 0xFFF. -/
theorem pc_lt_of_fetch {s : State} {w : Word} (h : fetch s = .ok w) : s.pc.toNat < 4095 := by
  rcases Nat.lt_trichotomy s.pc.toNat 4095 with hlt | heq | hgt
  · exact hlt
  · rw [fetch_of_eq heq] at h; cases h
  · rw [fetch_of_gt hgt] at h; cases h

/-- While the engine waits, a step request changes nothing. -/
theorem engineStep_of_wait {s : State} (h : s.mode = .waitKey) : engineStep s = .next s := by
  unfold engineStep; simp only [h]

/-- A step request in RUN runs the decoded instruction. -/
theorem engineStep_of_decode {s : State} {w : Word} {i : Instr} (hm : s.mode = .run) (hf : fetch s = .ok w)
    (hd : decodeWord w = some i) : engineStep s = exec i { s with drawOccurred := false } := by
  unfold engineStep; simp only [hm, hf, hd]

/-- A step request that answers a next state either waited or ran an instruction. -/
theorem engineStep_cases {s t : State} (h : engineStep s = .next t) :
    (s.mode = .waitKey ∧ t = s) ∨
    (s.mode = .run ∧ ∃ w i, fetch s = .ok w ∧ decodeWord w = some i ∧ exec i { s with drawOccurred := false } = .next t) := by
  unfold engineStep at h
  cases hm : s.mode with
  | waitKey => simp only [hm] at h; cases h; exact .inl ⟨rfl, rfl⟩
  | run =>
    simp only [hm] at h
    cases hf : fetch s with
    | error f => simp only [hf, State.raise] at h; cases h
    | ok w =>
      cases hd : decodeWord w with
      | none => simp only [hf, hd, State.raise] at h; cases h
      | some i => simp only [hf, hd] at h; exact .inr ⟨rfl, w, i, rfl, hd, h⟩

theorem nextEvent_of_nil {s : State} (h : s.inputs = []) : nextEvent s = Config.hostEvent s.arrivals := by
  unfold nextEvent; simp only [h]

theorem nextEvent_of_cons {s : State} {e : Event} {es : List Event} (h : s.inputs = e :: es) : nextEvent s = e := by
  unfold nextEvent; simp only [h]

theorem consumeEvent_of_nil {s : State} (h : s.inputs = []) : consumeEvent s = { s with arrivals := s.arrivals + 1 } := by
  unfold consumeEvent; simp only [h]

theorem consumeEvent_of_cons {s : State} {e : Event} {es : List Event} (h : s.inputs = e :: es) :
    consumeEvent s = { s with inputs := es } := by
  unfold consumeEvent; simp only [h]

/-- Using up an event touches nothing but the model's own list and count. -/
theorem consumeEvent_frame (s : State) :
    consumeEvent s = { s with inputs := (consumeEvent s).inputs, arrivals := (consumeEvent s).arrivals } := by
  unfold consumeEvent; split <;> rfl

@[simp] theorem consumeEvent_mem (s : State) : (consumeEvent s).mem = s.mem := by rw [consumeEvent_frame]
@[simp] theorem consumeEvent_regs (s : State) : (consumeEvent s).regs = s.regs := by rw [consumeEvent_frame]
@[simp] theorem consumeEvent_i (s : State) : (consumeEvent s).i = s.i := by rw [consumeEvent_frame]
@[simp] theorem consumeEvent_pc (s : State) : (consumeEvent s).pc = s.pc := by rw [consumeEvent_frame]
@[simp] theorem consumeEvent_stack (s : State) : (consumeEvent s).stack = s.stack := by rw [consumeEvent_frame]
@[simp] theorem consumeEvent_sp (s : State) : (consumeEvent s).sp = s.sp := by rw [consumeEvent_frame]
@[simp] theorem consumeEvent_dt (s : State) : (consumeEvent s).dt = s.dt := by rw [consumeEvent_frame]
@[simp] theorem consumeEvent_st (s : State) : (consumeEvent s).st = s.st := by rw [consumeEvent_frame]
@[simp] theorem consumeEvent_fb (s : State) : (consumeEvent s).fb = s.fb := by rw [consumeEvent_frame]
@[simp] theorem consumeEvent_keys (s : State) : (consumeEvent s).keys = s.keys := by rw [consumeEvent_frame]
@[simp] theorem consumeEvent_mode (s : State) : (consumeEvent s).mode = s.mode := by rw [consumeEvent_frame]
@[simp] theorem consumeEvent_waitX (s : State) : (consumeEvent s).waitX = s.waitX := by rw [consumeEvent_frame]
@[simp] theorem consumeEvent_drawOccurred (s : State) : (consumeEvent s).drawOccurred = s.drawOccurred := by rw [consumeEvent_frame]
@[simp] theorem consumeEvent_draws (s : State) : (consumeEvent s).draws = s.draws := by rw [consumeEvent_frame]
@[simp] theorem consumeEvent_reg (s : State) (k : Nibble) : (consumeEvent s).reg k = s.reg k := by rw [consumeEvent_frame]; rfl
@[simp] theorem consumeEvent_key (s : State) (k : Nibble) : (consumeEvent s).key k = s.key k := by rw [consumeEvent_frame]; rfl
@[simp] theorem fetch_consumeEvent (s : State) : fetch (consumeEvent s) = fetch s := by rw [consumeEvent_frame]; rfl

theorem step_of_cons {s : State} {e : Event} {es : List Event} (h : s.inputs = e :: es) :
    step s = applyEvent e { s with inputs := es } := by
  rw [step, nextEvent_of_cons h, consumeEvent_of_cons h]

/-- A store at `I` whose bytes fit: the bytes go to `I`, `I + 1`, ..., and `pc` advances. -/
theorem storeAtIndex_of_le {s : State} {bytes : List Byte} (h : s.i.toNat + bytes.length ≤ 4096) :
    s.storeAtIndex bytes = .next ({ s with mem := storeBytes s.mem s.i.toNat bytes } : State).advance := by
  have hc : checkRange s.indexBase bytes.length .write = none := (checkRange_eq_none_iff _ _ _).2 (.inr h)
  simp only [State.storeAtIndex, hc]; rfl

/-- A store at `I` that does not fit reports the first address out of range and changes nothing. -/
theorem storeAtIndex_of_gt {s : State} {bytes : List Byte} (h0 : 0 < bytes.length) (h : 4096 < s.i.toNat + bytes.length) :
    s.storeAtIndex bytes = .fault (.outOfBounds (max s.i.toNat 4096) .write) := by
  have hc := checkRange_of_outside h0 (show 4096 < s.indexBase + bytes.length from h) .write
  simp only [State.storeAtIndex, hc]; rfl

end Sys2Proof.Machine
end

