-- ==== Sys2Proof/Laws/Exec.lean ====
section
/-! SUPPORT. What the meanings that can fail answer when they answer a next state: one inversion lemma each. Every other meaning
answers a next state in every state, by its definition. -/

namespace Sys2Proof.Machine

theorem execRet_next {s t : State} (h : execRet s = .next t) :
    s.sp.val ≠ 0 ∧ ∃ sp : Fin 17, sp.val + 1 = s.sp.val ∧ t = { s with sp := sp, pc := s.stackSlot s.sp.val + 2 } := by
  by_cases h0 : s.sp.val = 0
  · simp only [execRet, pop_of_empty h0, State.raise] at h; cases h
  · obtain ⟨u, hu, h1, h2⟩ := pop_of_pos h0
    simp only [execRet, hu] at h
    cases h
    exact ⟨h0, u.sp, h1, by rw [h2]; rfl⟩

theorem execCallNnn_next {nnn : Addr12} {s t : State} (h : execCallNnn nnn s = .next t) :
    ∃ hlt : s.sp.val < 16,
      t = { s with sp := ⟨s.sp.val + 1, Nat.succ_lt_succ hlt⟩, stack := s.stack.set s.sp.val s.pc hlt, pc := addrWord nnn } := by
  by_cases hlt : s.sp.val < 16
  · simp only [execCallNnn, State.push, Config.stackDepth, hlt, dif_pos] at h
    cases h
    exact ⟨hlt, rfl⟩
  · have := s.sp.isLt
    simp only [execCallNnn, push_of_full (show s.sp.val = 16 by omega), State.raise] at h
    cases h

theorem storeAtIndex_next {s t : State} {bytes : List Byte} (h0 : 0 < bytes.length) (h : s.storeAtIndex bytes = .next t) :
    s.i.toNat + bytes.length ≤ 4096 ∧ t = { s with mem := storeBytes s.mem s.i.toNat bytes, pc := s.pc + 2 } := by
  by_cases hle : s.i.toNat + bytes.length ≤ 4096
  · rw [storeAtIndex_of_le hle] at h; cases h; exact ⟨hle, rfl⟩
  · rw [storeAtIndex_of_gt h0 (by omega)] at h; cases h

/-- LD Vx,[I] inside memory. -/
theorem execLdVxMem_of_le {x : Nibble} {s : State} (h : s.i.toNat + x.toNat < 4096) :
    execLdVxMem x s = .next { s with
      regs := setRegsFrom s.regs 0 (loadBytes s.mem s.i.toNat (x.toNat + 1)), pc := s.pc + 2 } := by
  have hc : checkRange s.indexBase (regCount x) .read = none :=
    (checkRange_eq_none_iff _ _ _).2 (.inr (by simp only [State.indexBase, regCount]; omega))
  simp only [execLdVxMem, hc]
  rfl

/-- LD Vx,[I] beyond memory. -/
theorem execLdVxMem_of_gt {x : Nibble} {s : State} (h : 4096 ≤ s.i.toNat + x.toNat) :
    execLdVxMem x s = .fault (.outOfBounds (max s.i.toNat 4096) .read) := by
  have hc := checkRange_of_outside (base := s.indexBase) (count := regCount x) (by simp only [regCount]; omega)
    (by simp only [State.indexBase, regCount]; omega) .read
  simp only [execLdVxMem, hc]
  rfl

/-- DRW of a sprite that can be read. -/
theorem execDrwVxVyN_of_le {x y n : Nibble} {s : State} (h : n.toNat = 0 ∨ s.i.toNat + n.toNat ≤ 4096) :
    execDrwVxVyN x y n s = .next (({ s with
      fb := (drawSprite s.fb (s.reg x).toNat (s.reg y).toNat (loadBytes s.mem s.i.toNat n.toNat)).1
      drawOccurred := true
      pc := s.pc + 2 } : State).setFlag
        (drawSprite s.fb (s.reg x).toNat (s.reg y).toNat (loadBytes s.mem s.i.toNat n.toNat)).2) := by
  have hc : checkRange s.indexBase n.toNat .read = none := (checkRange_eq_none_iff _ _ _).2 h
  simp only [execDrwVxVyN, hc]
  rfl

/-- DRW of a sprite that reaches beyond memory. -/
theorem execDrwVxVyN_of_gt {x y n : Nibble} {s : State} (h0 : 0 < n.toNat) (h : 4096 < s.i.toNat + n.toNat) :
    execDrwVxVyN x y n s = .fault (.outOfBounds (max s.i.toNat 4096) .read) := by
  have hc := checkRange_of_outside (base := s.indexBase) h0 h .read
  simp only [execDrwVxVyN, hc]
  rfl

theorem execLdVxMem_next {x : Nibble} {s t : State} (h : execLdVxMem x s = .next t) :
    s.i.toNat + x.toNat < 4096 ∧
      t = { s with regs := setRegsFrom s.regs 0 (loadBytes s.mem s.i.toNat (x.toNat + 1)), pc := s.pc + 2 } := by
  by_cases hle : s.i.toNat + x.toNat < 4096
  · rw [execLdVxMem_of_le hle] at h; cases h; exact ⟨hle, rfl⟩
  · rw [execLdVxMem_of_gt (by omega)] at h; cases h

theorem execDrwVxVyN_next {x y n : Nibble} {s t : State} (h : execDrwVxVyN x y n s = .next t) :
    (n.toNat = 0 ∨ s.i.toNat + n.toNat ≤ 4096) ∧ ∃ fb flag,
      (fb, flag) = drawSprite s.fb (s.reg x).toNat (s.reg y).toNat (loadBytes s.mem s.i.toNat n.toNat) ∧
      t = ({ s with fb := fb, drawOccurred := true, pc := s.pc + 2 } : State).setFlag flag := by
  by_cases hle : n.toNat = 0 ∨ s.i.toNat + n.toNat ≤ 4096
  · rw [execDrwVxVyN_of_le hle] at h; cases h; exact ⟨hle, _, _, rfl, rfl⟩
  · rw [execDrwVxVyN_of_gt (by omega) (by omega)] at h; cases h

end Sys2Proof.Machine
end

