-- ==== Sys2Proof/Laws/PerInstr.lean ====
section
/-! SUPPORT. The per-instruction family FitsRow: the word of an instruction fits the match and mask columns of its own row of
the opcode table (30_encoding.md R96), whatever its operands. -/

namespace Sys2Proof

/-- The row of the opcode table with the instruction's mnemonic. -/
def rowOf (i : Instr) : Option (Word × Word) := opcodeTable.lookup i.mnemonic

/-- The word of the instruction is the word its row describes: `w & mask = match` (30_encoding.md R96). -/
def Laws.FitsRow.Statement (i : Instr) : Prop :=
  ∃ m, rowOf i = some m ∧ encode i &&& m.2 = m.1

/-- A mask of all ones keeps a nibble, a mask of all zeros clears a field. -/
theorem nibble_and_ones (v : Nibble) : v &&& 0xF = v := BitVec.and_allOnes

theorem fits_nnn (op : Nibble) (nnn : Addr12) : wordNNN op nnn &&& 0xF000 = wordNNN op 0 := by
  have h := wordNNN_and op 0xF nnn 0#12
  rwa [nibble_and_ones, BitVec.and_zero] at h

theorem fits_xkk (op x : Nibble) (kk : Byte) : wordXKK op x kk &&& 0xF000 = wordXKK op 0 0 := by
  have h := wordXKK_and op x 0xF 0#4 kk 0#8
  rwa [nibble_and_ones, BitVec.and_zero, BitVec.and_zero] at h

theorem fits_xy (op x y n : Nibble) : wordXYN op x y n &&& 0xF00F = wordXYN op 0 0 n := by
  have h := wordXYN_and op x y n 0xF 0#4 0#4 0xF
  rwa [nibble_and_ones, nibble_and_ones, BitVec.and_zero, BitVec.and_zero] at h

theorem fits_xyn (op x y n : Nibble) : wordXYN op x y n &&& 0xF000 = wordXYN op 0 0 0 := by
  have h := wordXYN_and op x y n 0xF 0#4 0#4 0#4
  rwa [nibble_and_ones, BitVec.and_zero, BitVec.and_zero, BitVec.and_zero] at h

theorem fits_x (op x : Nibble) (kk : Byte) : wordXKK op x kk &&& 0xF0FF = wordXKK op 0 kk := by
  have h := wordXKK_and op x 0xF 0#4 kk 0xFF
  have e : kk &&& 0xFF = kk := BitVec.and_allOnes
  rwa [nibble_and_ones, e, BitVec.and_zero] at h

theorem Laws.FitsRow.cls : Laws.FitsRow.Statement (.cls) := ⟨_, rfl, rfl⟩
theorem Laws.FitsRow.ret : Laws.FitsRow.Statement (.ret) := ⟨_, rfl, rfl⟩
theorem Laws.FitsRow.jpNnn (nnn : Addr12) : Laws.FitsRow.Statement (.jpNnn nnn) := ⟨_, rfl, fits_nnn _ nnn⟩
theorem Laws.FitsRow.callNnn (nnn : Addr12) : Laws.FitsRow.Statement (.callNnn nnn) := ⟨_, rfl, fits_nnn _ nnn⟩
theorem Laws.FitsRow.seVxKk (x : Nibble) (kk : Byte) : Laws.FitsRow.Statement (.seVxKk x kk) := ⟨_, rfl, fits_xkk _ x kk⟩
theorem Laws.FitsRow.sneVxKk (x : Nibble) (kk : Byte) : Laws.FitsRow.Statement (.sneVxKk x kk) := ⟨_, rfl, fits_xkk _ x kk⟩
theorem Laws.FitsRow.seVxVy (x y : Nibble) : Laws.FitsRow.Statement (.seVxVy x y) := ⟨_, rfl, fits_xy _ x y _⟩
theorem Laws.FitsRow.ldVxKk (x : Nibble) (kk : Byte) : Laws.FitsRow.Statement (.ldVxKk x kk) := ⟨_, rfl, fits_xkk _ x kk⟩
theorem Laws.FitsRow.addVxKk (x : Nibble) (kk : Byte) : Laws.FitsRow.Statement (.addVxKk x kk) := ⟨_, rfl, fits_xkk _ x kk⟩
theorem Laws.FitsRow.ldVxVy (x y : Nibble) : Laws.FitsRow.Statement (.ldVxVy x y) := ⟨_, rfl, fits_xy _ x y _⟩
theorem Laws.FitsRow.orVxVy (x y : Nibble) : Laws.FitsRow.Statement (.orVxVy x y) := ⟨_, rfl, fits_xy _ x y _⟩
theorem Laws.FitsRow.andVxVy (x y : Nibble) : Laws.FitsRow.Statement (.andVxVy x y) := ⟨_, rfl, fits_xy _ x y _⟩
theorem Laws.FitsRow.xorVxVy (x y : Nibble) : Laws.FitsRow.Statement (.xorVxVy x y) := ⟨_, rfl, fits_xy _ x y _⟩
theorem Laws.FitsRow.addVxVy (x y : Nibble) : Laws.FitsRow.Statement (.addVxVy x y) := ⟨_, rfl, fits_xy _ x y _⟩
theorem Laws.FitsRow.subVxVy (x y : Nibble) : Laws.FitsRow.Statement (.subVxVy x y) := ⟨_, rfl, fits_xy _ x y _⟩
theorem Laws.FitsRow.shrVx (x y : Nibble) : Laws.FitsRow.Statement (.shrVx x y) := ⟨_, rfl, fits_xy _ x y _⟩
theorem Laws.FitsRow.subnVxVy (x y : Nibble) : Laws.FitsRow.Statement (.subnVxVy x y) := ⟨_, rfl, fits_xy _ x y _⟩
theorem Laws.FitsRow.shlVx (x y : Nibble) : Laws.FitsRow.Statement (.shlVx x y) := ⟨_, rfl, fits_xy _ x y _⟩
theorem Laws.FitsRow.sneVxVy (x y : Nibble) : Laws.FitsRow.Statement (.sneVxVy x y) := ⟨_, rfl, fits_xy _ x y _⟩
theorem Laws.FitsRow.ldINnn (nnn : Addr12) : Laws.FitsRow.Statement (.ldINnn nnn) := ⟨_, rfl, fits_nnn _ nnn⟩
theorem Laws.FitsRow.jpV0Nnn (nnn : Addr12) : Laws.FitsRow.Statement (.jpV0Nnn nnn) := ⟨_, rfl, fits_nnn _ nnn⟩
theorem Laws.FitsRow.rndVxKk (x : Nibble) (kk : Byte) : Laws.FitsRow.Statement (.rndVxKk x kk) := ⟨_, rfl, fits_xkk _ x kk⟩
theorem Laws.FitsRow.drwVxVyN (x y n : Nibble) : Laws.FitsRow.Statement (.drwVxVyN x y n) := ⟨_, rfl, fits_xyn _ x y n⟩
theorem Laws.FitsRow.skpVx (x : Nibble) : Laws.FitsRow.Statement (.skpVx x) := ⟨_, rfl, fits_x _ x _⟩
theorem Laws.FitsRow.sknpVx (x : Nibble) : Laws.FitsRow.Statement (.sknpVx x) := ⟨_, rfl, fits_x _ x _⟩
theorem Laws.FitsRow.ldVxDt (x : Nibble) : Laws.FitsRow.Statement (.ldVxDt x) := ⟨_, rfl, fits_x _ x _⟩
theorem Laws.FitsRow.ldVxK (x : Nibble) : Laws.FitsRow.Statement (.ldVxK x) := ⟨_, rfl, fits_x _ x _⟩
theorem Laws.FitsRow.ldDtVx (x : Nibble) : Laws.FitsRow.Statement (.ldDtVx x) := ⟨_, rfl, fits_x _ x _⟩
theorem Laws.FitsRow.ldStVx (x : Nibble) : Laws.FitsRow.Statement (.ldStVx x) := ⟨_, rfl, fits_x _ x _⟩
theorem Laws.FitsRow.addIVx (x : Nibble) : Laws.FitsRow.Statement (.addIVx x) := ⟨_, rfl, fits_x _ x _⟩
theorem Laws.FitsRow.ldFVx (x : Nibble) : Laws.FitsRow.Statement (.ldFVx x) := ⟨_, rfl, fits_x _ x _⟩
theorem Laws.FitsRow.ldBVx (x : Nibble) : Laws.FitsRow.Statement (.ldBVx x) := ⟨_, rfl, fits_x _ x _⟩
theorem Laws.FitsRow.ldMemVx (x : Nibble) : Laws.FitsRow.Statement (.ldMemVx x) := ⟨_, rfl, fits_x _ x _⟩
theorem Laws.FitsRow.ldVxMem (x : Nibble) : Laws.FitsRow.Statement (.ldVxMem x) := ⟨_, rfl, fits_x _ x _⟩

end Sys2Proof
end

