-- ==== Sys2Proof/Tests/Slice0.lean ====
section
/-! SUPPORT. The model's own tests. Words are written out from the pattern column of 30_encoding.md R96; expected results are the
vectors of 95_test_vectors.md (T, F, E and S numbers), which that file derives from the rules. Then the witnesses: for every
statement with hypotheses, a state and operands that meet them together. -/

namespace Sys2Proof.Tests

open Sys2Proof Sys2Proof.Machine

/-- The outcome is a next state with the property. -/
def answers (r : Result) (p : State → Bool) : Bool :=
  match r with
  | .next t => p t
  | .fault _ => false
  | .refused _ => false

/-- The outcome is this fault. -/
def faultsWith (r : Result) (f : Fault) : Bool :=
  match r with
  | .next _ => false
  | .fault g => g == f
  | .refused _ => false

/-- One step with the word placed where the machine fetches. -/
def runWord (w : Nat) (s : State) : Result := step (s.withFetchWord 16 w)

/-- The state with these general registers written. -/
def withRegs (s : State) : List (Nibble × Byte) → State
  | [] => s
  | (k, v) :: l => withRegs (s.setReg k v) l

/-- The state with this event next. -/
def withEvent (e : Event) (s : State) : State := { s with inputs := [e] }

/-! ## Well-formedness -/

/-- The fields of 0x8124 (30_encoding.md R91). -/
theorem test_fields_of_word :
    Fields.ofWord 0x8124 = { op := 8, x := 1, y := 2, n := 4, kk := 0x24, nnn := 0x124 } := by decide

theorem test_wellFormed_accepts_word_fields : (Fields.ofWord 0x8124).wellFormed = true := by decide

/-- The immediate byte is not `{Y, N}`: refused by the first check. -/
theorem test_wellFormed_refuses_kk :
    Fields.wellFormed { op := 8, x := 1, y := 2, n := 4, kk := 0x25, nnn := 0x125 } = false := by decide

/-- The address field is not `{X, KK}`: refused by the second check. -/
theorem test_wellFormed_refuses_nnn :
    Fields.wellFormed { op := 8, x := 1, y := 2, n := 4, kk := 0x24, nnn := 0x224 } = false := by decide

/-! ## Decoding: one word per instruction -/

theorem test_decode_cls : decodeTableWord 16 0x00E0 = some (.cls) := by decide

theorem test_decode_ret : decodeTableWord 16 0x00EE = some (.ret) := by decide

theorem test_decode_jpNnn : decodeTableWord 16 0x1234 = some (.jpNnn 0x234) := by decide

theorem test_decode_callNnn : decodeTableWord 16 0x2ABC = some (.callNnn 0xABC) := by decide

theorem test_decode_seVxKk : decodeTableWord 16 0x332A = some (.seVxKk 3 0x2A) := by decide

theorem test_decode_sneVxKk : decodeTableWord 16 0x4D01 = some (.sneVxKk 13 0x01) := by decide

theorem test_decode_seVxVy : decodeTableWord 16 0x5AB0 = some (.seVxVy 10 11) := by decide

theorem test_decode_ldVxKk : decodeTableWord 16 0x6A2F = some (.ldVxKk 10 0x2F) := by decide

theorem test_decode_addVxKk : decodeTableWord 16 0x7120 = some (.addVxKk 1 0x20) := by decide

theorem test_decode_ldVxVy : decodeTableWord 16 0x8120 = some (.ldVxVy 1 2) := by decide

theorem test_decode_orVxVy : decodeTableWord 16 0x8341 = some (.orVxVy 3 4) := by decide

theorem test_decode_andVxVy : decodeTableWord 16 0x8562 = some (.andVxVy 5 6) := by decide

theorem test_decode_xorVxVy : decodeTableWord 16 0x8783 = some (.xorVxVy 7 8) := by decide

theorem test_decode_addVxVy : decodeTableWord 16 0x81F4 = some (.addVxVy 1 15) := by decide

theorem test_decode_subVxVy : decodeTableWord 16 0x8F15 = some (.subVxVy 15 1) := by decide

theorem test_decode_shrVx : decodeTableWord 16 0x8126 = some (.shrVx 1 2) := by decide

theorem test_decode_subnVxVy : decodeTableWord 16 0x8AB7 = some (.subnVxVy 10 11) := by decide

theorem test_decode_shlVx : decodeTableWord 16 0x8ABE = some (.shlVx 10 11) := by decide

theorem test_decode_sneVxVy : decodeTableWord 16 0x9AB0 = some (.sneVxVy 10 11) := by decide

theorem test_decode_ldINnn : decodeTableWord 16 0xA2F0 = some (.ldINnn 0x2F0) := by decide

theorem test_decode_jpV0Nnn : decodeTableWord 16 0xBFFE = some (.jpV0Nnn 0xFFE) := by decide

theorem test_decode_rndVxKk : decodeTableWord 16 0xC10F = some (.rndVxKk 1 0x0F) := by decide

theorem test_decode_drwVxVyN : decodeTableWord 16 0xD015 = some (.drwVxVyN 0 1 5) := by decide

theorem test_decode_skpVx : decodeTableWord 16 0xE19E = some (.skpVx 1) := by decide

theorem test_decode_sknpVx : decodeTableWord 16 0xE5A1 = some (.sknpVx 5) := by decide

theorem test_decode_ldVxDt : decodeTableWord 16 0xF307 = some (.ldVxDt 3) := by decide

theorem test_decode_ldVxK : decodeTableWord 16 0xF70A = some (.ldVxK 7) := by decide

theorem test_decode_ldDtVx : decodeTableWord 16 0xF315 = some (.ldDtVx 3) := by decide

theorem test_decode_ldStVx : decodeTableWord 16 0xF418 = some (.ldStVx 4) := by decide

theorem test_decode_addIVx : decodeTableWord 16 0xF21E = some (.addIVx 2) := by decide

theorem test_decode_ldFVx : decodeTableWord 16 0xF429 = some (.ldFVx 4) := by decide

theorem test_decode_ldBVx : decodeTableWord 16 0xF933 = some (.ldBVx 9) := by decide

theorem test_decode_ldMemVx : decodeTableWord 16 0xFF55 = some (.ldMemVx 15) := by decide

theorem test_decode_ldVxMem : decodeTableWord 16 0xF265 = some (.ldVxMem 2) := by decide

/-- The words that 95_test_vectors.md classifies as decode failures, every group of 30_encoding.md R98. -/
theorem test_decode_illegal :
    ([0x0000, 0x00E1, 0x00FE, 0x0123, 0x0AE0, 0x5AB1, 0x8AB8, 0x8ABF, 0x9AB1, 0xE09F, 0xE0A2, 0xF000, 0xF075, 0xF085, 0xFFFF,
      0x5231, 0x9121, 0x8128, 0xE59F, 0xF308] : List Word).all (fun w => decodeWord w == none) = true := by decide

/-- Fewer than two bytes are no instruction (30_encoding.md R101). -/
theorem test_decode_truncated : decode [0x12] = .error .truncated := by rfl

/-- The rest of the bytes is handed back, high byte first (20_memory.md R60, F7). -/
theorem test_decode_rest : decode [0x12, 0x34, 0x56] = .ok (.jpNnn 0x234, [0x56]) := by rfl

/-! ## Instructions: the vectors of 95_test_vectors.md -/

/-- T100, two of its pixels. -/
theorem test_cls : answers (runWord 0x00E0 { State.reset with fb := (State.reset.fb.setPixel 0 0 true).setPixel 31 63 true })
    (fun t => !t.fb.pixel 0 0 && !t.fb.pixel 31 63 && t.reg 15 == 0 && !t.drawOccurred && t.pc == 0x0202) = true := by decide

/-- T3. -/
theorem test_ret : answers (runWord 0x00EE { State.reset with sp := 2, stack := (State.reset.stack.set 0 0x0300).set 1 0x0FFE })
    (fun t => t.pc == 0x1000 && t.sp == 1 && t.stackSlot 1 == 0x0300) = true := by decide

/-- T2. -/
theorem test_ret_empty : faultsWith (runWord 0x00EE State.reset) (.stackUnderflow) = true := by decide

/-- T5. -/
theorem test_jp : answers (runWord 0x1FFF State.reset) (fun t => t.pc == 0x0FFF) = true := by decide

/-- T8. -/
theorem test_call : answers (runWord 0x2300 { State.reset with sp := 15 })
    (fun t => t.pc == 0x0300 && t.sp == 16 && t.stackSlot 16 == 0x0200) = true := by decide

/-- T9. -/
theorem test_call_full : faultsWith (runWord 0x2300 { State.reset with sp := 16 }) (.stackOverflow) = true := by decide

/-- T10. -/
theorem test_se_imm_taken : answers (runWord 0x332A (withRegs State.reset [(3, 0x2A)]))
    (fun t => t.pc == 0x0204) = true := by decide

/-- T24: a taken skip at 0x0FFE, VF as operand. -/
theorem test_se_imm_top : answers (runWord 0x3F01 (withRegs { State.reset with pc := 0x0FFE } [(15, 1)]))
    (fun t => t.pc == 0x1002) = true := by decide

/-- T12. -/
theorem test_sne_imm_not_taken : answers (runWord 0x432A (withRegs State.reset [(3, 0x2A)]))
    (fun t => t.pc == 0x0202) = true := by decide

/-- T13. -/
theorem test_sne_imm_taken : answers (runWord 0x4300 (withRegs State.reset [(3, 0x2A)]))
    (fun t => t.pc == 0x0204) = true := by decide

/-- T16. -/
theorem test_se_reg_taken : answers (runWord 0x5330 (withRegs State.reset [(3, 0x99)]))
    (fun t => t.pc == 0x0204) = true := by decide

/-- T15. -/
theorem test_se_reg_not_taken : answers (runWord 0x5120 (withRegs State.reset [(1, 7), (2, 8)]))
    (fun t => t.pc == 0x0202) = true := by decide

/-- T30. -/
theorem test_ld_imm : answers (runWord 0x6A2F State.reset) (fun t => t.reg 10 == 0x2F && t.pc == 0x0202) = true := by decide

/-- T31: no carry flag. -/
theorem test_add_imm : answers (runWord 0x7120 (withRegs State.reset [(1, 0xF0), (15, 0x55)]))
    (fun t => t.reg 1 == 0x10 && t.reg 15 == 0x55) = true := by decide

/-- T33. -/
theorem test_add_imm_vf : answers (runWord 0x7F01 (withRegs State.reset [(15, 0xFF)]))
    (fun t => t.reg 15 == 0) = true := by decide

/-- T34. -/
theorem test_ld_reg : answers (runWord 0x8120 (withRegs State.reset [(1, 0x11), (2, 0x55)]))
    (fun t => t.reg 1 == 0x55 && t.reg 2 == 0x55 && t.reg 15 == 0) = true := by decide

/-- T35. -/
theorem test_or : answers (runWord 0x8121 (withRegs State.reset [(1, 0xF0), (2, 0x0F), (15, 1)]))
    (fun t => t.reg 1 == 0xFF && t.reg 15 == 1) = true := by decide

/-- T36. -/
theorem test_and : answers (runWord 0x8122 (withRegs State.reset [(1, 0xF3), (2, 0x3F), (15, 1)]))
    (fun t => t.reg 1 == 0x33 && t.reg 15 == 1) = true := by decide

/-- T37. -/
theorem test_xor : answers (runWord 0x8123 (withRegs State.reset [(1, 0xFF), (2, 0x0F), (15, 1)]))
    (fun t => t.reg 1 == 0xF0 && t.reg 15 == 1) = true := by decide

/-- T39. -/
theorem test_add_carry : answers (runWord 0x8124 (withRegs State.reset [(1, 0xC8), (2, 0x64)]))
    (fun t => t.reg 1 == 0x2C && t.reg 15 == 1) = true := by decide

/-- T44: with X = 15 the sum stays. -/
theorem test_add_dest_vf : answers (runWord 0x8F14 (withRegs State.reset [(15, 0xF0), (1, 0x20)]))
    (fun t => t.reg 15 == 0x10) = true := by decide

/-- T46. -/
theorem test_sub_borrow : answers (runWord 0x8125 (withRegs State.reset [(1, 0x10), (2, 0x20), (15, 1)]))
    (fun t => t.reg 1 == 0xF0 && t.reg 15 == 0) = true := by decide

/-- T48: equal operands clear the flag. -/
theorem test_sub_equal : answers (runWord 0x8125 (withRegs State.reset [(1, 0x33), (2, 0x33), (15, 1)]))
    (fun t => t.reg 1 == 0 && t.reg 15 == 0) = true := by decide

/-- T54: Y is ignored. -/
theorem test_shr : answers (runWord 0x8126 (withRegs State.reset [(1, 5), (2, 0xFF)]))
    (fun t => t.reg 1 == 2 && t.reg 2 == 0xFF && t.reg 15 == 1) = true := by decide

/-- T56. -/
theorem test_shr_dest_vf : answers (runWord 0x8F06 (withRegs State.reset [(15, 7)]))
    (fun t => t.reg 15 == 3) = true := by decide

/-- T57. -/
theorem test_subn : answers (runWord 0x8127 (withRegs State.reset [(1, 0x10), (2, 0x20)]))
    (fun t => t.reg 1 == 0x10 && t.reg 15 == 1) = true := by decide

/-- T58. -/
theorem test_subn_borrow : answers (runWord 0x8127 (withRegs State.reset [(1, 0x20), (2, 0x10), (15, 1)]))
    (fun t => t.reg 1 == 0xF0 && t.reg 15 == 0) = true := by decide

/-- T60. -/
theorem test_shl : answers (runWord 0x810E (withRegs State.reset [(1, 0x81)]))
    (fun t => t.reg 1 == 2 && t.reg 15 == 1) = true := by decide

/-- T61: the flag is bit 7 before the shift. -/
theorem test_shl_bit_before : answers (runWord 0x810E (withRegs State.reset [(1, 0x7F), (15, 1)]))
    (fun t => t.reg 1 == 0xFE && t.reg 15 == 0) = true := by decide

/-- T18. -/
theorem test_sne_reg_taken : answers (runWord 0x9120 (withRegs State.reset [(1, 7), (2, 8)]))
    (fun t => t.pc == 0x0204) = true := by decide

/-- T19. -/
theorem test_sne_reg_not_taken : answers (runWord 0x9120 (withRegs State.reset [(1, 7), (2, 7)]))
    (fun t => t.pc == 0x0202) = true := by decide

/-- T71. -/
theorem test_ld_i : answers (runWord 0xAFFF State.reset) (fun t => t.i == 0x0FFF && t.pc == 0x0202) = true := by decide

/-- T22: the sum is not masked to 12 bits. -/
theorem test_jp_v0 : answers (runWord 0xBFFF (withRegs State.reset [(0, 0xFF)])) (fun t => t.pc == 0x10FE) = true := by decide

/-- T66 with the free byte in place of 0xA7: the byte ANDed with the immediate. -/
theorem test_rnd : ∃ t, runWord 0xC10F State.reset = .next t ∧ t.reg 1 = Config.randomByte 0 &&& 0x0F :=
  ⟨_, rfl, rfl⟩

/-- T67: the immediate 0 leaves 0 whatever the free byte is. -/
theorem test_rnd_masked_out : ∃ t, runWord 0xC100 (withRegs State.reset [(1, 0x55)]) = .next t ∧ t.reg 1 = 0 ∧ t.draws = 1 :=
  ⟨_, rfl, BitVec.and_zero, rfl⟩

/-- T103: columns 60 to 63 and 0 to 3. -/
theorem test_drw_wrap : answers (runWord 0xD011 { withRegs State.reset [(0, 60)] with i := 0x300, mem := [(0x300, 0xFF)] })
    (fun t => t.fb.pixel 0 60 && t.fb.pixel 0 63 && t.fb.pixel 0 3 && !t.fb.pixel 0 4 && !t.fb.pixel 0 59 && t.reg 15 == 0) = true := by
  decide

/-- T106. -/
theorem test_drw_collision : answers (runWord 0xD011 
      { State.reset with i := 0x300, mem := [(0x300, 0xC0)], fb := State.reset.fb.setPixel 0 1 true }) (fun t => t.fb.pixel 0 0 && !t.fb.pixel 0 1 && t.reg 15 == 1 && t.drawOccurred) = true := by
  decide

/-- T120: the key is the low nibble of VX. -/
theorem test_skp : answers (runWord 0xE59E (withRegs (State.reset.setKey 10 true) [(5, 0x1A)]))
    (fun t => t.pc == 0x0204) = true := by decide

/-- T123. -/
theorem test_sknp : answers (runWord 0xE5A1 (withRegs State.reset [(5, 0x0A)])) (fun t => t.pc == 0x0204) = true := by decide

/-- T125. -/
theorem test_ld_vx_dt : answers (runWord 0xF307 { State.reset with dt := 0x3C })
    (fun t => t.reg 3 == 0x3C && t.dt == 0x3C) = true := by decide

/-- T128. -/
theorem test_ld_vx_k : answers (runWord 0xF70A State.reset)
    (fun t => t.mode == .waitKey && t.waitX == 7 && t.pc == 0x0200) = true := by decide

/-- T126. -/
theorem test_ld_dt : answers (runWord 0xF315 (withRegs State.reset [(3, 0x0A)]))
    (fun t => t.dt == 0x0A && t.st == 0) = true := by decide

/-- T127. -/
theorem test_ld_st : answers (runWord 0xF318 (withRegs State.reset [(3, 2)]))
    (fun t => t.dt == 0 && t.st == 2) = true := by decide

/-- T73: no flag above 0xFFF. -/
theorem test_add_i : answers (runWord 0xF21E (withRegs { State.reset with i := 0x0FFF } [(2, 1)]))
    (fun t => t.i == 0x1000 && t.reg 15 == 0) = true := by decide

/-- T75. -/
theorem test_add_i_wraps : answers (runWord 0xF21E (withRegs { State.reset with i := 0xFF80 } [(2, 0xFF)]))
    (fun t => t.i == 0x007F) = true := by decide

/-- T77: above 15 the low nibble counts. -/
theorem test_ld_f : answers (runWord 0xF429 (withRegs State.reset [(4, 0x1A)])) (fun t => t.i == 0x0032) = true := by decide

/-- T80. -/
theorem test_ld_b : answers (runWord 0xF333 (withRegs { State.reset with i := 0x300 } [(3, 234)]))
    (fun t => Memory.get t.mem 0x300 == 2 && Memory.get t.mem 0x301 == 3 && Memory.get t.mem 0x302 == 4 && t.i == 0x0300) = true := by
  decide

/-- T85: nothing is written. -/
theorem test_ld_b_outside :
    faultsWith (runWord 0xF333 (withRegs { State.reset with i := 0x0FFE } [(3, 100)])) (.outOfBounds 0x1000 .write) = true := by
  decide

/-- T87. -/
theorem test_store_block : answers (runWord 0xF255 (withRegs { State.reset with i := 0x300 } [(0, 1), (1, 2), (2, 3), (3, 4)]))
    (fun t => Memory.get t.mem 0x300 == 1 && Memory.get t.mem 0x302 == 3 && Memory.get t.mem 0x303 == 0 && t.i == 0x0300) = true := by
  decide

/-- T89. -/
theorem test_store_block_outside :
    faultsWith (runWord 0xF155 (withRegs { State.reset with i := 0x0FFF } [(0, 0xAB), (1, 0xCD)])) (.outOfBounds 0x1000 .write) = true := by
  decide

/-- T95: it reads its own two bytes. -/
theorem test_load_block : answers (runWord 0xF165 { State.reset with i := 0x0200 })
    (fun t => t.reg 0 == 0xF1 && t.reg 1 == 0x65) = true := by decide

/-- T94. -/
theorem test_load_block_outside :
    faultsWith (runWord 0xF065 { State.reset with i := 0xFFFF }) (.outOfBounds 0xFFFF .read) = true := by decide

/-! ## Fetch, decode failures and events -/

/-- F1: a jump in the last two bytes of memory. -/
theorem test_fetch_last : answers (step (withEvent .stepRequest { State.reset with pc := 0x0FFE, mem := [(0x0FFE, 0x12)] }))
    (fun t => t.pc == 0x0200) = true := by
  decide

/-- F2: the low byte is outside memory. -/
theorem test_fetch_half_outside :
    faultsWith (step (withEvent .stepRequest { State.reset with pc := 0x0FFF })) (.outOfBounds 0x1000 .fetch) = true := by
  decide

/-- F4. -/
theorem test_fetch_outside :
    faultsWith (step (withEvent .stepRequest { State.reset with pc := 0x10FE })) (.outOfBounds 0x10FE .fetch) = true := by
  decide

/-- F5: an odd `pc` is fetched from. -/
theorem test_fetch_odd :
    answers (step (withEvent .stepRequest { State.reset with pc := 0x0203, mem := [(0x203, 0x6A), (0x204, 0x2F)] }))
    (fun t => t.reg 10 == 0x2F && t.pc == 0x0205) = true := by decide

/-- F6: the font, run as code, is no instruction. -/
theorem test_font_is_no_code :
    faultsWith (step (withEvent .stepRequest { State.reset with pc := 0 })) (.decodeFailure 0xF090 0) = true := by decide

/-- T17, S11. -/
theorem test_decode_failure : faultsWith (runWord 0x5231 State.reset) (.decodeFailure 0x5231 0x0200) = true := by decide

/-- E1, the first tick. -/
theorem test_tick : answers (step (withEvent .tick { State.reset with dt := 10, st := 3 }))
    (fun t => t.dt == 9 && t.st == 2 && t.inputs == []) = true := by decide

/-- The end of the list: the free event comes, whatever it is, and is counted (20_memory.md R80). -/
theorem test_free_event :
    nextEvent State.reset = Config.hostEvent 0 ∧ (consumeEvent State.reset).arrivals = 1 := ⟨rfl, rfl⟩

/-- E2: the floor at 0. -/
theorem test_tick_floor : answers (step (withEvent .tick State.reset)) (fun t => t.dt == 0 && t.st == 0) = true := by decide

/-- E7: while waiting, a repeat of a held key changes nothing and a press of a released one completes LD V3,K. -/
theorem test_wait_repeat :
    answers (step (withEvent (.setKey 4 true) { State.reset.setKey 4 true with mode := .waitKey, waitX := 3 }))
    (fun t => t.mode == .waitKey && t.key 4 && t.reg 3 == 0 && t.pc == 0x0200) = true := by decide

theorem test_wait_press : answers (step (withEvent (.setKey 4 true) { State.reset with mode := .waitKey, waitX := 3 }))
    (fun t => t.mode == .run && t.key 4 && t.reg 3 == 4 && t.pc == 0x0202) = true := by decide

/-- E9: a tick does not wake the engine. -/
theorem test_wait_tick : answers (step (withEvent .tick { State.reset with mode := .waitKey, dt := 2 }))
    (fun t => t.mode == .waitKey && t.dt == 1 && t.pc == 0x0200) = true := by decide

/-- E10: initialise abandons a wait. -/
theorem test_initialise : answers (step (withEvent .initialise
      { withRegs State.reset [(1, 0x55)] with mode := .waitKey, waitX := 7, pc := 0x0210, mem := [(0x300, 1)] }))
    (fun t => t.mode == .run && t.pc == 0x0200 && t.reg 1 == 0 && t.reg 7 == 0 && t.mem == []) = true := by decide

/-- A short image lands at 0x200, high byte first (P6); R244. -/
theorem test_loadProgram : answers (step (withEvent (.loadProgram [0x22, 0x00]) State.reset))
    (fun t => t.mem == [(0x200, 0x22)] && t.pc == 0x0200) = true := by decide

/-- E5, for every image of 3585 bytes. -/
theorem test_loadProgram_too_long (bytes : List Byte) (h : bytes.length = 3585) :
    step (withEvent (.loadProgram bytes) State.reset) = .fault (.programLoadError 3585) := by
  simp [step, nextEvent, withEvent, applyEvent, loadProgram, State.raise, h]

/-- Writing back the reset contents removes the cell (the canonical form). -/
theorem test_memory_canonical : Memory.set (Memory.set [] 0x300 5) 0x300 0 = [] ∧ Memory.wf [(0, 0xF0)] = false := by decide

/-- S9: a sound counter of 0 is silent (60_exceptions.md R227). -/
theorem test_sound_active :
    State.reset.soundActive = false ∧ ({ State.reset with st := 1 } : State).soundActive = true := by decide

/-! ## Witnesses: every statement with hypotheses has a state and operands that meet them together -/

/-- `JP 0x200` at 0x0FFE, the last address a fetch can start from. -/
def lastWord : State := { State.reset with pc := 0x0FFE, mem := [(0x0FFE, 0x12)] }

/-- A state waiting for a key for V3. -/
def waiting : State := { State.reset with mode := .waitKey, waitX := 3 }

/-- `I` at 0x300, where memory holds the byte 0xC0, and V0, V1 at 0. -/
def spriteState : State := { State.reset with i := 0x300, mem := [(0x300, 0xC0)] }

/-- As `spriteState`, with the pixel under the second sprite bit lit. -/
def spriteOverLit : State := { spriteState with fb := State.reset.fb.setPixel 0 1 true }

theorem inv_of_pc {s : State} (h : s.pc.toNat ≤ 0xFFE) (hm : s.mem.wf = true) (hs : s.stack = State.reset.stack) : s.Inv where
  mem_wf := hm
  pc_le := by omega
  stack_le := by rw [hs]; decide
  wait_pc_le := fun _ => h

theorem witness_EncodeOfDecodeIsTheWord : decodeWord 0x8124 = some (.addVxVy 1 2) := by decide

theorem witness_DecodeTreeAgreesWithTable :
    (∃ i, decodeWord 0x8124 = some i ∧ i.mnemonic = "ADD Vx,Vy") ∧
    ("ADD Vx,Vy", (0x8004 : Word), (0xF00F : Word)) ∈ opcodeTable ∧ (0x8124 : Word) &&& 0xF00F = 0x8004 :=
  ⟨⟨.addVxVy 1 2, by decide, rfl⟩, by decide, by decide⟩

/-- The three ranges of `pc`, at their boundaries. -/
theorem witness_FetchIsBigEndianAndBounded :
    lastWord.pc.toNat ≤ 0xFFE ∧ ({ lastWord with pc := 0x0FFF } : State).pc.toNat = 0xFFF ∧
    0xFFF < ({ lastWord with pc := 0x1000 } : State).pc.toNat ∧
    (({ lastWord with pc := 0x1000 } : State).mode = .run ∧
      fetch { lastWord with pc := 0x1000 } = .error (.outOfBounds 0x1000 .fetch)) :=
  ⟨by decide, by decide, by decide, rfl, rfl⟩

theorem witness_EachStepTakesTheNextEvent :
    (withEvent .tick State.reset).inputs = [.tick] ∧ State.reset.inputs = [] := by decide

theorem witness_AnyNumberOfTicksMayComeNext :
    ({ State.reset with inputs := [.tick, .tick, .stepRequest] } : State).inputs = List.replicate 2 .tick ++ [.stepRequest] := by
  decide

theorem witness_StepRunsTheDecodedInstruction :
    nextEvent (withEvent .stepRequest lastWord) = .stepRequest ∧ (withEvent .stepRequest lastWord).mode = .run ∧
    fetch (withEvent .stepRequest lastWord) = .ok 0x1200 ∧ decodeWord 0x1200 = some (.jpNnn 0x200) :=
  ⟨rfl, rfl, rfl, by decide⟩

/-- A fetch error, an illegal word, and an instruction whose own check fails. -/
theorem witness_FirstFailingCheckIsReported :
    (({ lastWord with pc := 0x0FFF } : State).mode = .run ∧
      fetch { lastWord with pc := 0x0FFF } = .error (.outOfBounds 0x1000 .fetch)) ∧
    (State.reset.mode = .run ∧ fetch State.reset = .ok 0x0000 ∧ decodeWord 0x0000 = none) ∧
    (({ State.reset with mem := [(0x201, 0xEE)] } : State).mode = .run ∧
      fetch { State.reset with mem := [(0x201, 0xEE)] } = .ok 0x00EE ∧ decodeWord 0x00EE = some .ret ∧
      faultOf .ret { State.reset with mem := [(0x201, 0xEE)] } = some .stackUnderflow) :=
  ⟨⟨rfl, rfl⟩, ⟨rfl, rfl, by decide⟩, rfl, rfl, by decide, rfl⟩

/-- Each check at its boundary: 16 slots, the last byte of memory, and the empty sprite anywhere. -/
theorem witness_InstructionsCompleteUnlessTheirCheckFails :
    faultOf (.callNnn 0x300) { State.reset with sp := 15 } = none ∧
    faultOf (.callNnn 0x300) { State.reset with sp := 16 } = some .stackOverflow ∧
    faultOf .ret { State.reset with sp := 1 } = none ∧ faultOf .ret State.reset = some .stackUnderflow ∧
    faultOf (.ldBVx 3) { State.reset with i := 0x0FFD } = none ∧
    faultOf (.ldBVx 3) { State.reset with i := 0x0FFE } = some (.outOfBounds 0x1000 .write) ∧
    faultOf (.ldMemVx 15) { State.reset with i := 0x0FF0 } = none ∧
    faultOf (.ldMemVx 15) { State.reset with i := 0x0FF1 } = some (.outOfBounds 0x1000 .write) ∧
    faultOf (.ldVxMem 0) { State.reset with i := 0x0FFF } = none ∧
    faultOf (.ldVxMem 0) { State.reset with i := 0xFFFF } = some (.outOfBounds 0xFFFF .read) ∧
    faultOf (.drwVxVyN 0 1 15) { State.reset with i := 0x0FF1 } = none ∧
    faultOf (.drwVxVyN 0 1 15) { State.reset with i := 0x0FF2 } = some (.outOfBounds 0x1000 .read) ∧
    faultOf (.drwVxVyN 0 1 0) { State.reset with i := 0x2000 } = none := by decide

theorem witness_WaitingEngineTakesNoStep :
    (withEvent .stepRequest waiting).mode = .waitKey ∧ nextEvent (withEvent .stepRequest waiting) = .stepRequest := by decide

theorem witness_PlacedInstructionRunsNext : lastWord.mem.wf = true ∧ State.reset.mem.wf = true := by decide

/-- The last two bytes of memory, stored by LD [I],V1 and fetched at once. -/
theorem witness_StoredBytesAreFetched :
    ({ State.reset with i := 0x0FFE } : State).mem.wf = true ∧ 0 < (1 : Nibble).toNat ∧
    ({ State.reset with i := 0x0FFE } : State).i.toNat + (1 : Nibble).toNat < 4096 ∧
    ∃ t u : State, exec (.ldMemVx 1) { State.reset with i := 0x0FFE } = .next t ∧ u.mem = t.mem ∧ u.pc.toNat = 0x0FFE + 0 :=
  ⟨by decide, by decide, by decide, _, { State.reset with pc := 0x0FFE }, rfl, rfl, rfl⟩

/-- In RUN, and while waiting. -/
theorem witness_StepKeepsInvariant :
    ((withEvent .stepRequest lastWord).Inv ∧ ∃ t, step (withEvent .stepRequest lastWord) = .next t) ∧
    ((withEvent .tick waiting).Inv ∧ ∃ t, step (withEvent .tick waiting) = .next t) :=
  ⟨⟨inv_of_pc (by decide) (by decide) rfl, _, rfl⟩, ⟨inv_of_pc (by decide) (by decide) rfl, _, rfl⟩⟩

theorem witness_TimersOnlyDecrementApartFromWrites :
    nextEvent (withEvent .tick State.reset) = .tick ∧ (∃ t, exec .cls State.reset = .next t) ∧
    (∀ x, Instr.cls ≠ .ldDtVx x) ∧ (∀ x, Instr.cls ≠ .ldStVx x) ∧
    (waiting.mode = .waitKey ∧ ∃ t, engineStep waiting = .next t) ∧ ∃ t, loadProgram [0x22, 0x00] State.reset = .next t :=
  ⟨rfl, ⟨_, rfl⟩, (by intro x h; cases h), (by intro x h; cases h), ⟨rfl, _, rfl⟩, ⟨_, rfl⟩⟩

theorem witness_TickCommutesWithUntimedInstructions : touchesTimer .cls = false ∧ touchesTimer (.ldVxK 3) = false := by decide

/-- Both branches: the press of a released key while waiting, and a press in RUN. -/
theorem witness_KeyEventsFollowTheLatchTable :
    (nextEvent (withEvent (.setKey 4 true) waiting) = .setKey 4 true ∧ (withEvent (.setKey 4 true) waiting).mode = .waitKey ∧
      (withEvent (.setKey 4 true) waiting).key 4 = false) ∧
    (nextEvent (withEvent (.setKey 4 true) State.reset) = .setKey 4 true ∧
      (withEvent (.setKey 4 true) State.reset).mode = .run) := by decide

theorem witness_InitialiseGivesResetState : nextEvent (withEvent .initialise waiting) = .initialise := by decide

/-- The longest image, and one byte more. -/
theorem witness_LoadProgramInstallsTheImage :
    (∀ bytes, (withEvent (.loadProgram bytes) State.reset).mem.wf = true) ∧
    (∃ bytes : List Byte, bytes.length ≤ 3584 ∧ bytes.length = 3584 ∧
      nextEvent (withEvent (.loadProgram bytes) State.reset) = .loadProgram bytes) ∧
    ∃ bytes : List Byte, 3584 < bytes.length ∧ nextEvent (withEvent (.loadProgram bytes) State.reset) = .loadProgram bytes :=
  ⟨fun _ => rfl, ⟨List.replicate 3584 0xAA, by rw [List.length_replicate], List.length_replicate, rfl⟩,
    ⟨List.replicate 3585 0xAA, by rw [List.length_replicate]; decide, rfl⟩⟩

theorem witness_KeySkipsTestTheLatch : (10 : Nibble).toNat = ((withRegs State.reset [(5, 0x1A)]).reg 5).toNat % 16 := by decide

theorem witness_CallPushesItsOwnAddress : ({ State.reset with sp := 15 } : State).sp.val < 16 := by decide

theorem witness_ReturnPopsAndAdvances :
    ({ State.reset with sp := 1 } : State).sp.val ≠ 0 ∧ ({ State.reset with sp := 16 } : State).sp.val ≠ 0 := by decide

/-- Sixteen nested calls, and a seventeenth. -/
theorem witness_CallsBeyondDepthSixteenOverflow :
    ({ State.reset with sp := 16 } : State).sp.val = 16 ∧
    State.reset.sp.val + (List.replicate 16 (0x200 : Addr12)).length ≤ 16 ∧
    16 < State.reset.sp.val + (List.replicate 17 (0x200 : Addr12)).length := by decide

theorem witness_ReturnOnEmptyStackUnderflows : exec .ret State.reset = .fault .stackUnderflow ∧ State.reset.sp.val = 0 :=
  ⟨rfl, rfl⟩

theorem witness_ReturnUndoesCall : ∃ t, exec (.callNnn 0x300) State.reset = .next t ∧ t.sp = t.sp ∧ t.stack = t.stack :=
  ⟨_, rfl, rfl, rfl⟩

theorem witness_StackPointerMovesOnlyByCallAndReturn :
    ∃ t, exec (.callNnn 0x300) State.reset = .next t ∧ t.sp ≠ State.reset.sp :=
  ⟨_, rfl, by decide⟩

theorem witness_FramebufferWrittenOnlyByClearAndDraw : ∃ t, exec .cls spriteOverLit = .next t ∧ t.fb ≠ spriteOverLit.fb :=
  ⟨_, rfl, fun h => absurd (congrArg (fun f => Framebuffer.pixel f 0 1) h) (by decide)⟩

theorem witness_IndexWrittenOnlyByIndexInstructions : ∃ t, exec (.ldINnn 0x2F0) State.reset = .next t ∧ t.i ≠ State.reset.i :=
  ⟨_, rfl, by decide⟩

theorem witness_MemoryWrittenOnlyByStores :
    ∃ t, exec (.ldBVx 3) (withRegs { State.reset with i := 0x300 } [(3, 234)]) = .next t ∧
      Memory.get t.mem 0x300 ≠ Memory.get State.reset.mem 0x300 := ⟨_, rfl, by decide⟩

theorem witness_RegistersWrittenOnlyAsNamed :
    (∃ t, exec (.addVxVy 1 2) State.reset = .next t) ∧ ¬ MayWrite (.addVxVy 1 2) 2 :=
  ⟨⟨_, rfl⟩, fun h => h.elim (by decide) (by decide)⟩

theorem witness_LatchUntouchedAndOnlyKeyWaitSuspends :
    (∃ t, exec (.skpVx 5) State.reset = .next t) ∧ ∀ x, Instr.skpVx 5 ≠ .ldVxK x := 
  ⟨⟨_, rfl⟩, by intro x h; cases h⟩

theorem witness_SequentialInstructionsAdvanceByTwo :
    (∃ t, exec .cls State.reset = .next t) ∧ transfersControl .cls = false := ⟨⟨_, rfl⟩, rfl⟩

theorem witness_DrawReportedExactlyByDraw :
    (∃ t, lastWord.mode = .run ∧ fetch lastWord = .ok 0x1200 ∧ decodeWord 0x1200 = some (.jpNnn 0x200) ∧
      applyEvent .stepRequest lastWord = .next t) ∧
    ∃ t, (State.reset.withFetchWord 16 0xD010).mode = .run ∧ fetch (State.reset.withFetchWord 16 0xD010) = .ok 0xD010 ∧
      decodeWord 0xD010 = some (.drwVxVyN 0 1 0) ∧
      applyEvent .stepRequest (State.reset.withFetchWord 16 0xD010) = .next t :=
  ⟨⟨_, rfl, rfl, by decide, rfl⟩, _, rfl, rfl, by decide, rfl⟩

theorem witness_AddSetsTheCarry : (1 : Nibble) ≠ 15 ∧ (3 : Nibble) ≠ 1 ∧ (3 : Nibble) ≠ 15 := by decide

theorem witness_SubtractsSetTheStrictFlag : (14 : Nibble) ≠ 15 ∧ (0 : Nibble) ≠ 14 ∧ (0 : Nibble) ≠ 15 := by decide

theorem witness_ShiftsSetTheBitShiftedOut : (0 : Nibble) ≠ 15 ∧ (14 : Nibble) ≠ 0 ∧ (14 : Nibble) ≠ 15 := by decide

theorem witness_LoadsCopyIntoTheRegister : (15 : Nibble) ≠ 10 := by decide

theorem witness_AddImmediateWritesNoFlag : (15 : Nibble) ≠ 1 := by decide

theorem witness_LogicWorksBitByBit : (15 : Nibble) ≠ 1 := by decide

theorem witness_TimerInstructionsCopyTheCounter : (0 : Nibble) ≠ 3 := by decide

theorem witness_RandomByteIsMasked : (0x0F : Byte).getLsbD 4 = false ∧ (2 : Nibble) ≠ 1 := by decide

/-- The last three bytes of memory. -/
theorem witness_BcdStoresTheDecimalDigits :
    ({ State.reset with i := 0x0FFD } : State).mem.wf = true ∧ ({ State.reset with i := 0x0FFD } : State).i.toNat + 2 < 4096 := by
  decide

/-- All sixteen registers, in the last sixteen bytes of memory. -/
theorem witness_RegisterBlockIsStored :
    ({ State.reset with i := 0x0FF0 } : State).mem.wf = true ∧
    ({ State.reset with i := 0x0FF0 } : State).i.toNat + (15 : Nibble).toNat < 4096 := by decide

theorem witness_RegisterBlockIsLoaded :
    ({ State.reset with i := 0x0FF0 } : State).i.toNat + (15 : Nibble).toNat < 4096 ∧ (2 : Nibble).toNat < (3 : Nibble).toNat := by
  decide

theorem witness_LoadRestoresWhatStoreSaved :
    spriteState.mem.wf = true ∧ ∃ t u : State, exec (.ldMemVx 2) spriteState = .next t ∧ u.mem = t.mem ∧
      u.i = spriteState.i ∧ u.reg 0 ≠ spriteState.reg 0 :=
  ⟨by decide, _, { withRegs spriteState [(0, 0x77)] with mem := [] }, rfl, rfl, rfl, by decide⟩

/-- The first index each form stops on. -/
theorem witness_AccessesBeyondMemoryAreReported :
    4096 ≤ ({ State.reset with i := 0x0FFE } : State).i.toNat + 2 ∧
    4096 ≤ ({ State.reset with i := 0x0FF1 } : State).i.toNat + (15 : Nibble).toNat ∧
    ((1 : Nibble) ≠ 0 ∧ 4096 < ({ State.reset with i := 0x1000 } : State).i.toNat + (1 : Nibble).toNat) := by decide

/-- A sprite in the last byte of memory and an empty one beyond it; a covered cell that was set, one that was not, and a cell
that is not covered. -/
theorem witness_DrawXorsTheSprite :
    SpriteInside 1 { State.reset with i := 0x0FFF } ∧ SpriteInside 0 { State.reset with i := 0x2000 } ∧
    (Covers 0 1 1 spriteOverLit 0 1 ∧ spriteOverLit.fb.pixel 0 1 = true) ∧
    (Covers 0 1 1 spriteOverLit 0 0 ∧ spriteOverLit.fb.pixel 0 0 = false) ∧ ¬ Covers 0 1 1 spriteOverLit 1 0 :=
  ⟨.inr (by decide), .inl rfl, ⟨⟨0, 1, by decide⟩, by decide⟩, ⟨⟨0, 0, by decide⟩, by decide⟩,
   fun ⟨r, c, hr, _, _, h, _⟩ => by
    have h0 : r = 0 := by have := hr; change r < 1 at this; omega
    subst h0; revert h; decide⟩

/-- No covered cell is set on the blank screen. -/
theorem witness_DrawXorsTheSprite_blank : SpriteInside 1 spriteState ∧
    ∀ row col, Covers 0 1 1 spriteState row col → spriteState.fb.pixel row col = false :=
  ⟨.inr (by decide), fun row col _ => by simp [spriteState, State.reset, Framebuffer.pixel]⟩

theorem witness_DrawingTwiceRestoresTheScreen :
    (0 : Nibble) ≠ 15 ∧ (1 : Nibble) ≠ 15 ∧ ∃ t, exec (.drwVxVyN 0 1 1) spriteOverLit = .next t :=
  ⟨by decide, by decide, _, rfl⟩

theorem witness_KeyWaitEndsWithThePressedKey :
    ∃ t u, exec (.ldVxK 3) State.reset = .next t ∧ State.reset.key 4 = false ∧ engineStep (ticks 1 t) = .next u :=
  ⟨_, _, rfl, by decide, rfl⟩

end Sys2Proof.Tests
end

/-! SUPPORT. The two timers (10_state.md R37): what a tick makes of a counter, and that each other instruction and event keeps
both. -/

namespace Sys2Proof.Machine

/-- A tick takes one off a counter, floor 0 (natural-number subtraction). -/
@[simp] theorem toNat_decrement (v : Byte) : (decrement v).toNat = v.toNat - 1 := by
  unfold decrement
  split
  · next h => simp [h]
  · next h => bv_omega

/-- A step whose next event is a tick applies the tick. -/
theorem step_of_tick {s : State} (h : nextEvent s = .tick) : step s = .next (tick (consumeEvent s)) := by
  rw [step, h]; rfl

/-- A key event completes the pending LD Vx,K on the press of a released key while waiting, and else only writes the latch
(44_timers_input.md R195, R198). -/
theorem setKeyEvent_cases (k : Nibble) (pressed : Bool) (s : State) :
    ((s.mode = .waitKey ∧ pressed = true ∧ s.key k = false) ∧ setKeyEvent k pressed s = completeWait k s) ∨
    (¬ (s.mode = .waitKey ∧ pressed = true ∧ s.key k = false) ∧ setKeyEvent k pressed s = s.setKey k pressed) := by
  unfold setKeyEvent
  cases s.mode with
  | run => exact .inr ⟨by simp, rfl⟩
  | waitKey =>
    by_cases hpress : pressed = true ∧ s.key k = false
    · exact .inl ⟨⟨rfl, hpress⟩, if_pos hpress⟩
    · exact .inr ⟨fun h => hpress h.2, if_neg hpress⟩

/-- A load that answers a next state had at most 3584 bytes and changed memory only (60_exceptions.md R206, R222). -/
theorem loadProgram_next {bytes : List Byte} {s t : State} (h : loadProgram bytes s = .next t) :
    bytes.length ≤ 3584 ∧ t = { s with mem := storeBytes s.mem Config.progBase bytes } := by
  unfold loadProgram at h
  split at h
  · cases h
  · next hle => cases h; exact ⟨Nat.le_of_not_lt hle, rfl⟩

/-- A meaning that answers the state `u` in every case keeps the timers if `u` has them. -/
theorem timers_of_next_eq {s t u : State} (h : (.next u : Result) = .next t) (hu : u.dt = s.dt ∧ u.st = s.st) :
    t.dt = s.dt ∧ t.st = s.st := by
  cases h; exact hu

/-- Only LD DT,Vx and LD ST,Vx write a timer (10_state.md R37). -/
theorem exec_keeps_timers {i : Instr} {s t : State} (hdt : ∀ x, i ≠ .ldDtVx x) (hst : ∀ x, i ≠ .ldStVx x)
    (h : exec i s = .next t) : t.dt = s.dt ∧ t.st = s.st := by
  cases i with
  | ldDtVx x => exact absurd rfl (hdt x)
  | ldStVx x => exact absurd rfl (hst x)
  | ret => obtain ⟨_, _, _, rfl⟩ := execRet_next h; exact ⟨rfl, rfl⟩
  | callNnn nnn => obtain ⟨_, rfl⟩ := execCallNnn_next h; exact ⟨rfl, rfl⟩
  | drwVxVyN x y n => obtain ⟨_, _, _, _, rfl⟩ := execDrwVxVyN_next h; exact ⟨rfl, rfl⟩
  | ldBVx x => obtain ⟨_, rfl⟩ := storeAtIndex_next (by simp) h; exact ⟨rfl, rfl⟩
  | ldMemVx x => obtain ⟨_, rfl⟩ := storeAtIndex_next (by simp) h; exact ⟨rfl, rfl⟩
  | ldVxMem x => obtain ⟨_, rfl⟩ := execLdVxMem_next h; exact ⟨rfl, rfl⟩
  | cls | jpNnn | seVxKk | sneVxKk | seVxVy | ldVxKk | addVxKk | ldVxVy | orVxVy | andVxVy | xorVxVy | addVxVy | subVxVy
  | shrVx | subnVxVy | shlVx | sneVxVy | ldINnn | jpV0Nnn | rndVxKk | skpVx | sknpVx | ldVxDt | ldVxK | addIVx | ldFVx =>
    exact timers_of_next_eq h ⟨rfl, rfl⟩

theorem setKeyEvent_keeps_timers (k : Nibble) (pressed : Bool) (s : State) :
    (setKeyEvent k pressed s).dt = s.dt ∧ (setKeyEvent k pressed s).st = s.st := by
  obtain ⟨_, h⟩ | ⟨_, h⟩ := setKeyEvent_cases k pressed s <;> rw [h] <;> exact ⟨rfl, rfl⟩

/-- Settles O17: the tick from `step_of_tick` and `toNat_decrement`, the two writes by their meanings, and the frame of every
other instruction and event from its own lemma. -/
theorem timersOnlyDecrementApartFromWrites : Obligations.TimersOnlyDecrementApartFromWrites := by
  refine ⟨fun s htick => ?tick, fun x s => ?delay, fun x s => ?sound, fun i s t => exec_keeps_timers, fun s t hwait h => ?wait,
    fun s => ?init, setKeyEvent_keeps_timers, fun bytes s t h => ?load⟩
  case tick => exact ⟨_, step_of_tick htick, by simp [tick], by simp [tick], rfl⟩
  case delay => exact ⟨_, rfl, rfl, rfl⟩
  case sound => exact ⟨_, rfl, rfl, rfl⟩
  case wait =>
    rw [engineStep_of_wait hwait] at h
    exact timers_of_next_eq h ⟨rfl, rfl⟩
  case init => exact ⟨rfl, rfl⟩
  case load => obtain ⟨_, rfl⟩ := loadProgram_next h; exact ⟨rfl, rfl⟩

end Sys2Proof.Machine

/-! SUPPORT. The fetch (20_memory.md R60): the two bytes of the word it reads, and what a step request makes of its error. -/

namespace Sys2Proof

@[simp] theorem highByte_wordOfBytes (hi lo : Byte) : highByte (wordOfBytes hi lo) = hi :=
  BitVec.extractLsb'_append_eq_left

@[simp] theorem lowByte_wordOfBytes (hi lo : Byte) : lowByte (wordOfBytes hi lo) = lo :=
  BitVec.extractLsb'_append_eq_right

end Sys2Proof

namespace Sys2Proof.Machine

/-- A step request in RUN reports the error its fetch met (60_exceptions.md R207). -/
theorem engineStep_of_fetch_error {s : State} {f : Fault} (hm : s.mode = .run) (hf : fetch s = .error f) :
    engineStep s = .fault f := by
  unfold engineStep; simp only [hm, hf, State.raise]

/-- Settles O6: the three ranges of `pc` from the fetch's law for each, the bytes of the word from `highByte_wordOfBytes` and
`lowByte_wordOfBytes`, and the report from `engineStep_of_fetch_error`. -/
theorem fetchIsBigEndianAndBounded : Obligations.FetchIsBigEndianAndBounded := by
  refine fun s => ⟨fun hinside => ?inside, fetch_of_eq, fetch_of_gt, fun f => engineStep_of_fetch_error⟩
  case inside =>
    exact ⟨_, fetch_of_lt (Nat.lt_succ_of_le hinside), highByte_wordOfBytes _ _, lowByte_wordOfBytes _ _⟩

end Sys2Proof.Machine

/-! SUPPORT. The skips (40_control_flow.md R129): their one write, and their Boolean tests as comparisons of unsigned values. -/

namespace Sys2Proof.Machine

/-- A skip on a test that says `p` writes `pc` only: 4 further if `p` holds, else 2. -/
theorem next_skipIf_of_iff (s : State) {test : Bool} {p : Prop} [Decidable p] (h : test = true ↔ p) :
    (.next (s.skipIf test) : Result) = .next { s with pc := s.pc + (if p then 4 else 2) } :=
  congrArg (fun d => (.next (s.jump (s.pc + d)) : Result)) (if_congr h rfl rfl)

/-- The test of SE compares the full unsigned values. -/
theorem beq_iff_toNat_eq (a b : Byte) : (a == b) = true ↔ a.toNat = b.toNat :=
  beq_iff_eq.trans BitVec.toNat_inj.symm

/-- The test of SNE compares the full unsigned values. -/
theorem bne_iff_toNat_ne (a b : Byte) : (a != b) = true ↔ a.toNat ≠ b.toNat :=
  bne_iff_ne.trans (not_congr BitVec.toNat_inj.symm)

/-- Settles O24: each of the six is a `skipIf`, whose next state is `next_skipIf_of_iff` at what its test says. -/
theorem skipsAdvanceByFourOrTwo : Obligations.SkipsAdvanceByFourOrTwo := by
  refine ⟨fun x kk s => ?seVxKk, fun x kk s => ?sneVxKk, fun x y s => ?seVxVy, fun x y s => ?sneVxVy, fun x s => ?skpVx,
    fun x s => ?sknpVx⟩
  case seVxKk => exact next_skipIf_of_iff s (beq_iff_toNat_eq (s.reg x) kk)
  case sneVxKk => exact next_skipIf_of_iff s (bne_iff_toNat_ne (s.reg x) kk)
  case seVxVy => exact next_skipIf_of_iff s (beq_iff_toNat_eq (s.reg x) (s.reg y))
  case sneVxVy => exact next_skipIf_of_iff s (bne_iff_toNat_ne (s.reg x) (s.reg y))
  case skpVx => exact next_skipIf_of_iff s Iff.rfl
  case sknpVx => exact next_skipIf_of_iff s (Bool.not_eq_true' (s.key (s.keyOf x))).to_iff

end Sys2Proof.Machine

/-! SUPPORT. The two faults of the call stack (60_exceptions.md R204, R205): a CALL and a RET by the depth, sequences of calls, and
that no other instruction reports an underflow. -/

namespace Sys2Proof.Machine

/-- A CALL below the full depth succeeds one deeper (40_control_flow.md R124). -/
theorem exec_callNnn_of_lt (nnn : Addr12) {s : State} (h : s.sp.val < 16) :
    ∃ t, exec (.callNnn nnn) s = .next t ∧ t.sp.val = s.sp.val + 1 := by
  obtain ⟨u, hpush, hsp, _⟩ := push_of_lt h s.pc
  exact ⟨u.jump (addrWord nnn), by simp only [exec, execCallNnn, hpush], hsp⟩

/-- A CALL on a full stack overflows (60_exceptions.md R204). -/
theorem exec_callNnn_of_full (nnn : Addr12) {s : State} (h : s.sp.val = 16) :
    exec (.callNnn nnn) s = .fault .stackOverflow := by
  simp only [exec, execCallNnn, push_of_full h, State.raise]

/-- Below the full depth the first call of a sequence succeeds, and the rest run from a state one deeper. -/
theorem callAll_cons_of_lt (nnn : Addr12) (rest : List Addr12) {s : State} (h : s.sp.val < 16) :
    ∃ t, callAll (nnn :: rest) s = callAll rest t ∧ t.sp.val = s.sp.val + 1 := by
  obtain ⟨t, hcall, hsp⟩ := exec_callNnn_of_lt nnn h
  exact ⟨t, by simp only [callAll, hcall], hsp⟩

/-- On a full stack the first call of a sequence overflows, and the sequence ends there. -/
theorem callAll_cons_of_full (nnn : Addr12) (rest : List Addr12) {s : State} (h : s.sp.val = 16) :
    callAll (nnn :: rest) s = .fault .stackOverflow := by
  simp only [callAll, exec_callNnn_of_full nnn h]

theorem callAll_of_le (targets : List Addr12) (s : State) (h : s.sp.val + targets.length ≤ 16) :
    ∃ t, callAll targets s = .next t ∧ t.sp.val = s.sp.val + targets.length := by
  induction targets generalizing s with
  | nil => exact ⟨s, rfl, rfl⟩
  | cons nnn rest ih =>
    rw [List.length_cons] at h ⊢
    obtain ⟨t, hcalls, hsp⟩ := callAll_cons_of_lt nnn rest (s := s) (by omega)
    obtain ⟨u, hrest, hdepth⟩ := ih t (by omega)
    exact ⟨u, hcalls.trans hrest, by omega⟩

theorem callAll_of_gt (targets : List Addr12) (s : State) (h : 16 < s.sp.val + targets.length) :
    callAll targets s = .fault .stackOverflow := by
  have hdepth : s.sp.val ≤ 16 := Nat.le_of_lt_succ s.sp.isLt
  induction targets generalizing s with
  | nil => exact absurd hdepth (Nat.not_le_of_lt h)
  | cons nnn rest ih =>
    rw [List.length_cons] at h
    obtain hlt | hfull := Nat.lt_or_eq_of_le hdepth
    · obtain ⟨t, hcalls, hsp⟩ := callAll_cons_of_lt nnn rest hlt
      exact hcalls.trans (ih t (by omega) (by omega))
    · exact callAll_cons_of_full nnn rest hfull

/-- Settles O28: the 17th call by `exec_callNnn_of_full`, the two kinds of sequences by induction on their targets. -/
theorem callsBeyondDepthSixteenOverflow : Obligations.CallsBeyondDepthSixteenOverflow :=
  ⟨fun nnn _ => exec_callNnn_of_full nnn, callAll_of_le, callAll_of_gt⟩

/-- A RET on an empty stack underflows (60_exceptions.md R205). -/
theorem exec_ret_of_empty {s : State} (h : s.sp.val = 0) : exec .ret s = .fault .stackUnderflow := by
  simp only [exec, execRet, pop_of_empty h, State.raise]

/-- A RET with a stacked address completes (40_control_flow.md R121). -/
theorem exec_ret_of_pos {s : State} (h : s.sp.val ≠ 0) : ∃ t, exec .ret s = .next t := by
  obtain ⟨u, hpop, _⟩ := pop_of_pos h
  exact ⟨u.jump (s.stackSlot s.sp.val + 2), by simp only [exec, execRet, hpop]⟩

/-- A store at `I` that faults reports its range, never the stack. -/
theorem storeAtIndex_ne_underflow {s : State} {bytes : List Byte} (h0 : 0 < bytes.length) :
    s.storeAtIndex bytes ≠ .fault .stackUnderflow := by
  by_cases hle : s.i.toNat + bytes.length ≤ 4096
  · rw [storeAtIndex_of_le hle]; nofun
  · rw [storeAtIndex_of_gt h0 (by omega)]; nofun

theorem execLdVxMem_ne_underflow (x : Nibble) (s : State) : execLdVxMem x s ≠ .fault .stackUnderflow := by
  by_cases hlt : s.i.toNat + x.toNat < 4096
  · rw [execLdVxMem_of_le hlt]; nofun
  · rw [execLdVxMem_of_gt (by omega)]; nofun

theorem execDrwVxVyN_ne_underflow (x y n : Nibble) (s : State) : execDrwVxVyN x y n s ≠ .fault .stackUnderflow := by
  by_cases hle : n.toNat = 0 ∨ s.i.toNat + n.toNat ≤ 4096
  · rw [execDrwVxVyN_of_le hle]; nofun
  · rw [execDrwVxVyN_of_gt (by omega) (by omega)]; nofun

theorem exec_callNnn_ne_underflow (nnn : Addr12) (s : State) : exec (.callNnn nnn) s ≠ .fault .stackUnderflow := by
  obtain hlt | hfull := Nat.lt_or_eq_of_le (Nat.le_of_lt_succ s.sp.isLt)
  · obtain ⟨t, hcall, _⟩ := exec_callNnn_of_lt nnn hlt
    rw [hcall]; nofun
  · rw [exec_callNnn_of_full nnn hfull]; nofun

/-- Only RET pops, so no other instruction reports an underflow (60_exceptions.md R205). -/
theorem exec_ne_underflow {i : Instr} (s : State) (hret : i ≠ .ret) : exec i s ≠ .fault .stackUnderflow := by
  cases i with
  | ret => exact absurd rfl hret
  | callNnn nnn => exact exec_callNnn_ne_underflow nnn s
  | drwVxVyN x y n => exact execDrwVxVyN_ne_underflow x y n s
  | ldBVx x => exact storeAtIndex_ne_underflow (by simp)
  | ldMemVx x => exact storeAtIndex_ne_underflow (by simp)
  | ldVxMem x => exact execLdVxMem_ne_underflow x s
  | cls | jpNnn | seVxKk | sneVxKk | seVxVy | ldVxKk | addVxKk | ldVxVy | orVxVy | andVxVy | xorVxVy | addVxVy | subVxVy
  | shrVx | subnVxVy | shlVx | sneVxVy | ldINnn | jpV0Nnn | rndVxKk | skpVx | sknpVx | ldVxDt | ldVxK | ldDtVx | ldStVx
  | addIVx | ldFVx => nofun

/-- Settles O29: no other instruction by `exec_ne_underflow`, and RET by whether an address is stacked. -/
theorem returnOnEmptyStackUnderflows : Obligations.ReturnOnEmptyStackUnderflows := by
  refine fun i s => ⟨fun h => ?_, fun ⟨hret, hempty⟩ => hret ▸ exec_ret_of_empty hempty⟩
  have hret : i = .ret := by_contra fun hne => exec_ne_underflow s hne h
  subst hret
  refine ⟨rfl, by_contra fun hpos => ?_⟩
  obtain ⟨t, hnext⟩ := exec_ret_of_pos hpos
  cases hnext.symm.trans h

end Sys2Proof.Machine

/-! SUPPORT. The encoding (30_encoding.md R93, R96, R98): decode of encode, encode of decode, the rows of the opcode table, and
the words that are no instruction. -/

namespace Sys2Proof

/-! ### Decode of encode, format by format -/

/-- The decoder undoes the encoder (30_encoding.md R93, R96). -/
theorem decodeWord_encode (i : Instr) : decodeWord (encode i) = some i := by
  cases i with
  | cls => rfl
  | ret => rfl
  | jpNnn | callNnn | ldINnn | jpV0Nnn => simp [encode, decodeWord, dispatch]
  | seVxKk | sneVxKk | ldVxKk | addVxKk | rndVxKk => simp [encode, decodeWord, dispatch]
  | seVxVy | sneVxVy | drwVxVyN => simp [encode, decodeWord, dispatch]
  | ldVxVy | orVxVy | andVxVy | xorVxVy | addVxVy | subVxVy | shrVx | subnVxVy | shlVx =>
    simp [encode, decodeWord, dispatch, dispatch8]
  | skpVx | sknpVx => simp [encode, decodeWord, dispatch, dispatchE]
  | ldVxDt | ldVxK | ldDtVx | ldStVx | addIVx | ldFVx | ldBVx | ldMemVx | ldVxMem =>
    simp [encode, decodeWord, dispatch, dispatchF]

theorem decode_encodeBytes (i : Instr) (rest : List Byte) : decode (encodeBytes i ++ rest) = .ok (i, rest) := by
  simp only [encodeBytes, List.cons_append, List.nil_append, decode, wordOfBytes_bytes, decodeWord_encode]

@[simp] theorem tableWord_toNat (w : Word) : tableWord 16 w.toNat = w := by
  rw [tableWord, Nat.mod_eq_of_lt w.isLt, BitVec.ofNat_toNat, BitVec.setWidth_eq]

theorem decodeTableWord_encode (i : Instr) : decodeTableWord 16 (encode i).toNat = some i := by
  have h := decode_encodeBytes i []
  rw [List.append_nil, encodeBytes] at h
  simp only [decodeTableWord, tableWord_toNat, h]

/-- Settles O1: the word by `decodeWord_encode`, its bytes and its table word from it. -/
theorem decodeOfEncodeIsTheInstruction : Obligations.DecodeOfEncodeIsTheInstruction :=
  fun i => ⟨decodeWord_encode i, decode_encodeBytes i, decodeTableWord_encode i⟩

/-! ### Encode of decode -/

/-- A word in format XKK is made of its own fields. -/
theorem wordXKK_ofWord (w : Word) :
    wordXKK (Fields.ofWord w).op (Fields.ofWord w).x (Fields.ofWord w).kk = w := by
  have hwf := ofWord_wellFormed w
  simp only [Fields.wellFormed, Fields.kkAgrees, Fields.nnnAgrees, Bool.and_eq_true, beq_iff_eq] at hwf
  rw [wordXKK_eq_wordNNN, ← hwf.2, wordNNN_ofWord]

/-- A word in format XYN is made of its own fields. -/
theorem wordXYN_ofWord (w : Word) :
    wordXYN (Fields.ofWord w).op (Fields.ofWord w).x (Fields.ofWord w).y (Fields.ofWord w).n = w := by
  have hwf := ofWord_wellFormed w
  simp only [Fields.wellFormed, Fields.kkAgrees, Fields.nnnAgrees, Bool.and_eq_true, beq_iff_eq] at hwf
  rw [wordXYN_eq_wordXKK, ← hwf.1, wordXKK_ofWord]

theorem encode_of_dispatch0 {f : Fields} {i : Instr} (h : dispatch0 f = some i) : encode i = wordNNN 0x0 f.nnn := by
  unfold dispatch0 at h
  split at h <;> cases h <;> simp only [*] <;> rfl

theorem encode_of_dispatch8 {f : Fields} {i : Instr} (h : dispatch8 f = some i) : encode i = wordXYN 0x8 f.x f.y f.n := by
  unfold dispatch8 at h
  split at h <;> cases h <;> simp only [*] <;> rfl

theorem encode_of_dispatchE {f : Fields} {i : Instr} (h : dispatchE f = some i) : encode i = wordXKK 0xE f.x f.kk := by
  unfold dispatchE at h
  split at h <;> cases h <;> simp only [*] <;> rfl

theorem encode_of_dispatchF {f : Fields} {i : Instr} (h : dispatchF f = some i) : encode i = wordXKK 0xF f.x f.kk := by
  unfold dispatchF at h
  split at h <;> cases h <;> simp only [*] <;> rfl

/-- The word of a dispatched instruction is made of the fields in the format of its group (30_encoding.md R92). -/
theorem encode_of_dispatch {f : Fields} {i : Instr} (h : dispatch f = some i) :
    encode i = wordNNN f.op f.nnn ∨ encode i = wordXKK f.op f.x f.kk ∨ encode i = wordXYN f.op f.x f.y f.n := by
  unfold dispatch at h
  split at h
  case h_1 hop => exact .inl (hop ▸ encode_of_dispatch0 h)
  case h_9 hop => exact .inr (.inr (hop ▸ encode_of_dispatch8 h))
  case h_15 hop => exact .inr (.inl (hop ▸ encode_of_dispatchE h))
  case h_16 hop => exact .inr (.inl (hop ▸ encode_of_dispatchF h))
  case h_2 hop | h_3 hop | h_11 hop | h_12 hop => cases h; exact .inl (hop ▸ rfl)
  case h_4 hop | h_5 hop | h_7 hop | h_8 hop | h_13 hop => cases h; exact .inr (.inl (hop ▸ rfl))
  case h_6 hop | h_10 hop =>
    split at h
    · next hn => cases h; exact .inr (.inr (by rw [hop, hn]; rfl))
    · cases h
  case h_14 hop => cases h; exact .inr (.inr (hop ▸ rfl))
  case h_17 => cases h

/-- A legal word is the word of the instruction it decodes to (30_encoding.md R93, R96). -/
theorem encode_of_decodeWord {w : Word} {i : Instr} (h : decodeWord w = some i) : encode i = w := by
  obtain hi | hi | hi := encode_of_dispatch h
  · rw [hi, wordNNN_ofWord]
  · rw [hi, wordXKK_ofWord]
  · rw [hi, wordXYN_ofWord]

/-- Settles O2: `encode_of_decodeWord`. -/
theorem encodeOfDecodeIsTheWord : Obligations.EncodeOfDecodeIsTheWord := fun _ _ => encode_of_decodeWord

/-! ### The decode tree and the opcode table -/

/-- The word of every instruction fits its own row of the opcode table. -/
theorem fitsRow (i : Instr) : Laws.FitsRow.Statement i := by
  cases i with
  | cls => exact Laws.FitsRow.cls
  | ret => exact Laws.FitsRow.ret
  | jpNnn nnn | callNnn nnn | ldINnn nnn | jpV0Nnn nnn => exact ⟨_, rfl, fits_nnn _ nnn⟩
  | seVxKk x kk | sneVxKk x kk | ldVxKk x kk | addVxKk x kk | rndVxKk x kk => exact ⟨_, rfl, fits_xkk _ x kk⟩
  | seVxVy x y | sneVxVy x y | ldVxVy x y | orVxVy x y | andVxVy x y | xorVxVy x y | addVxVy x y | subVxVy x y
  | shrVx x y | subnVxVy x y | shlVx x y => exact ⟨_, rfl, fits_xy _ x y _⟩
  | drwVxVyN x y n => exact ⟨_, rfl, fits_xyn _ x y n⟩
  | skpVx x | sknpVx x | ldVxDt x | ldVxK x | ldDtVx x | ldStVx x | addIVx x | ldFVx x | ldBVx x | ldMemVx x
  | ldVxMem x => exact ⟨_, rfl, fits_x _ x _⟩

/-- The decoded instruction's own row is in the table and matches the word. -/
theorem row_of_decodeWord {w : Word} {i : Instr} (h : decodeWord w = some i) :
    ∃ m k, (i.mnemonic, m, k) ∈ opcodeTable ∧ w &&& k = m := by
  obtain ⟨⟨m, k⟩, hrow, hfits⟩ := fitsRow i
  obtain ⟨l, r, htable, _⟩ := List.lookup_eq_some_iff.1 hrow
  exact ⟨m, k, by rw [htable]; simp, encode_of_decodeWord h ▸ hfits⟩

/-- A word that an instruction encodes to decodes to it. -/
theorem decodeWord_of_encode_eq {w : Word} {i : Instr} (h : encode i = w) : decodeWord w = some i :=
  h ▸ decodeWord_encode i

/-- The mask of CLS and RET fixes the whole word. -/
theorem decodeWord_of_mask_FFFF {w m : Word} {i : Instr} (h : w &&& 0xFFFF = m) (hi : encode i = m) :
    decodeWord w = some i := by
  have hw : w &&& 0xFFFF = w := BitVec.and_allOnes
  exact decodeWord_of_encode_eq (hi.trans (h.symm.trans hw))

/-- The mask of most groups fixes the top nibble. -/
theorem decodeWord_of_mask_F000 {w m : Word} {i : Instr} (h : w &&& 0xF000 = m)
    (hi : encode i = wordNNN (Fields.ofWord m).op (Fields.ofWord w).nnn ∨
      encode i = wordXKK (Fields.ofWord m).op (Fields.ofWord w).x (Fields.ofWord w).kk ∨
      encode i = wordXYN (Fields.ofWord m).op (Fields.ofWord w).x (Fields.ofWord w).y (Fields.ofWord w).n) :
    decodeWord w = some i := by
  have hand : (Fields.ofWord (w &&& 0xF000)).op = (Fields.ofWord w).op &&& 0xF := BitVec.extractLsb'_and
  rw [nibble_and_ones] at hand
  rw [← h, hand, wordNNN_ofWord, wordXKK_ofWord, wordXYN_ofWord, or_self, or_self] at hi
  exact decodeWord_of_encode_eq hi

/-- The mask of the groups 5, 8 and 9 fixes the top and the low nibble. -/
theorem decodeWord_of_mask_F00F {w m : Word} {i : Instr} (h : w &&& 0xF00F = m)
    (hi : encode i = wordXYN (Fields.ofWord m).op (Fields.ofWord w).x (Fields.ofWord w).y (Fields.ofWord m).n) :
    decodeWord w = some i := by
  have hop : (Fields.ofWord (w &&& 0xF00F)).op = (Fields.ofWord w).op &&& 0xF := BitVec.extractLsb'_and
  have hn : (Fields.ofWord (w &&& 0xF00F)).n = (Fields.ofWord w).n &&& 0xF := BitVec.extractLsb'_and
  rw [← h, hop, hn, nibble_and_ones, nibble_and_ones, wordXYN_ofWord] at hi
  exact decodeWord_of_encode_eq hi

/-- The mask of the groups E and F fixes the top nibble and the low byte. -/
theorem decodeWord_of_mask_F0FF {w m : Word} {i : Instr} (h : w &&& 0xF0FF = m)
    (hi : encode i = wordXKK (Fields.ofWord m).op (Fields.ofWord w).x (Fields.ofWord m).kk) :
    decodeWord w = some i := by
  have hop : (Fields.ofWord (w &&& 0xF0FF)).op = (Fields.ofWord w).op &&& 0xF := BitVec.extractLsb'_and
  have hkk : (Fields.ofWord (w &&& 0xF0FF)).kk = (Fields.ofWord w).kk &&& BitVec.allOnes 8 := BitVec.extractLsb'_and
  rw [← h, hop, hkk, nibble_and_ones, BitVec.and_allOnes, wordXKK_ofWord] at hi
  exact decodeWord_of_encode_eq hi

/-- A word that matches a row decodes to an instruction with the row's mnemonic. -/
theorem decodeWord_of_row {w : Word} : ∀ r ∈ opcodeTable, w &&& r.2.2 = r.2.1 →
    ∃ i, decodeWord w = some i ∧ i.mnemonic = r.1 := by
  simp only [opcodeTable, List.forall_mem_append, List.forall_mem_cons, List.not_mem_nil, false_implies, implies_true, and_true]
  refine ⟨⟨⟨⟨fun h => ⟨.cls, decodeWord_of_mask_FFFF h rfl, rfl⟩,
    fun h => ⟨.ret, decodeWord_of_mask_FFFF h rfl, rfl⟩,
    fun h => ⟨.jpNnn _, decodeWord_of_mask_F000 h (.inl rfl), rfl⟩,
    fun h => ⟨.callNnn _, decodeWord_of_mask_F000 h (.inl rfl), rfl⟩,
    fun h => ⟨.seVxKk _ _, decodeWord_of_mask_F000 h (.inr (.inl rfl)), rfl⟩,
    fun h => ⟨.sneVxKk _ _, decodeWord_of_mask_F000 h (.inr (.inl rfl)), rfl⟩,
    fun h => ⟨.seVxVy _ _, decodeWord_of_mask_F00F h rfl, rfl⟩,
    fun h => ⟨.ldVxKk _ _, decodeWord_of_mask_F000 h (.inr (.inl rfl)), rfl⟩,
    fun h => ⟨.addVxKk _ _, decodeWord_of_mask_F000 h (.inr (.inl rfl)), rfl⟩⟩,
    fun h => ⟨.ldVxVy _ _, decodeWord_of_mask_F00F h rfl, rfl⟩,
    fun h => ⟨.orVxVy _ _, decodeWord_of_mask_F00F h rfl, rfl⟩,
    fun h => ⟨.andVxVy _ _, decodeWord_of_mask_F00F h rfl, rfl⟩,
    fun h => ⟨.xorVxVy _ _, decodeWord_of_mask_F00F h rfl, rfl⟩,
    fun h => ⟨.addVxVy _ _, decodeWord_of_mask_F00F h rfl, rfl⟩,
    fun h => ⟨.subVxVy _ _, decodeWord_of_mask_F00F h rfl, rfl⟩,
    fun h => ⟨.shrVx _ _, decodeWord_of_mask_F00F h rfl, rfl⟩,
    fun h => ⟨.subnVxVy _ _, decodeWord_of_mask_F00F h rfl, rfl⟩,
    fun h => ⟨.shlVx _ _, decodeWord_of_mask_F00F h rfl, rfl⟩⟩,
    fun h => ⟨.sneVxVy _ _, decodeWord_of_mask_F00F h rfl, rfl⟩,
    fun h => ⟨.ldINnn _, decodeWord_of_mask_F000 h (.inl rfl), rfl⟩,
    fun h => ⟨.jpV0Nnn _, decodeWord_of_mask_F000 h (.inl rfl), rfl⟩,
    fun h => ⟨.rndVxKk _ _, decodeWord_of_mask_F000 h (.inr (.inl rfl)), rfl⟩,
    fun h => ⟨.drwVxVyN _ _ _, decodeWord_of_mask_F000 h (.inr (.inr rfl)), rfl⟩,
    fun h => ⟨.skpVx _, decodeWord_of_mask_F0FF h rfl, rfl⟩,
    fun h => ⟨.sknpVx _, decodeWord_of_mask_F0FF h rfl, rfl⟩⟩,
    fun h => ⟨.ldVxDt _, decodeWord_of_mask_F0FF h rfl, rfl⟩,
    fun h => ⟨.ldVxK _, decodeWord_of_mask_F0FF h rfl, rfl⟩,
    fun h => ⟨.ldDtVx _, decodeWord_of_mask_F0FF h rfl, rfl⟩,
    fun h => ⟨.ldStVx _, decodeWord_of_mask_F0FF h rfl, rfl⟩,
    fun h => ⟨.addIVx _, decodeWord_of_mask_F0FF h rfl, rfl⟩,
    fun h => ⟨.ldFVx _, decodeWord_of_mask_F0FF h rfl, rfl⟩,
    fun h => ⟨.ldBVx _, decodeWord_of_mask_F0FF h rfl, rfl⟩,
    fun h => ⟨.ldMemVx _, decodeWord_of_mask_F0FF h rfl, rfl⟩,
    fun h => ⟨.ldVxMem _, decodeWord_of_mask_F0FF h rfl, rfl⟩⟩

/-- Two rows whose matches agree where both masks look are the same row. -/
theorem row_eq_of_compatible : ∀ r ∈ opcodeTable, ∀ r' ∈ opcodeTable,
    r.2.1 &&& r'.2.2 = r'.2.1 &&& r.2.2 → r = r' := by
  decide

theorem row_eq_of_match {w : Word} {r r' : String × Word × Word} (hr : r ∈ opcodeTable) (hr' : r' ∈ opcodeTable)
    (h : w &&& r.2.2 = r.2.1) (h' : w &&& r'.2.2 = r'.2.1) : r = r' := by
  refine row_eq_of_compatible r hr r' hr' ?_
  rw [← h, ← h', BitVec.and_assoc, BitVec.and_assoc, BitVec.and_comm r.2.2]

/-- Settles O3: the row of a decoded word by `row_of_decodeWord`, the instruction of a matched row by `decodeWord_of_row`, and
exclusive rows by `row_eq_of_match`. -/
theorem decodeTreeAgreesWithTable : Obligations.DecodeTreeAgreesWithTable := by
  refine ⟨fun w name => ⟨?_, ?_⟩, fun w r hr r' hr' => row_eq_of_match hr hr'⟩
  · rintro ⟨i, hdec, rfl⟩
    exact row_of_decodeWord hdec
  · rintro ⟨m, k, hrow, hmatch⟩
    exact decodeWord_of_row _ hrow hmatch

/-! ### The words that are no instruction -/

theorem dispatch0_eq_none_iff (f : Fields) : dispatch0 f = none ↔ f.nnn ≠ 0x0E0 ∧ f.nnn ≠ 0x0EE := by
  unfold dispatch0
  split <;> simp_all

theorem dispatchE_eq_none_iff (f : Fields) : dispatchE f = none ↔ f.kk ≠ 0x9E ∧ f.kk ≠ 0xA1 := by
  unfold dispatchE
  split <;> simp_all

theorem dispatchF_eq_none_iff (f : Fields) :
    dispatchF f = none ↔ f.kk ∉ ([0x07, 0x0A, 0x15, 0x18, 0x1E, 0x29, 0x33, 0x55, 0x65] : List Byte) := by
  unfold dispatchF
  split <;> simp_all

/-- The low nibbles group 8 assigns and those it does not are all there are. -/
theorem group8_unassigned_iff : ∀ n : Nibble, n ∉ ([0x0, 0x1, 0x2, 0x3, 0x4, 0x5, 0x6, 0x7, 0xE] : List Nibble) ↔
    n ∈ ([0x8, 0x9, 0xA, 0xB, 0xC, 0xD, 0xF] : List Nibble) := by
  decide

theorem dispatch8_eq_none_iff (f : Fields) :
    dispatch8 f = none ↔ f.n ∈ ([0x8, 0x9, 0xA, 0xB, 0xC, 0xD, 0xF] : List Nibble) := by
  rw [← group8_unassigned_iff]
  unfold dispatch8
  split <;> simp_all

/-- The sixteen nibbles are all the top nibbles there are. -/
theorem nibble_mem_all : ∀ n : Nibble,
    n ∈ ([0x0, 0x1, 0x2, 0x3, 0x4, 0x5, 0x6, 0x7, 0x8, 0x9, 0xA, 0xB, 0xC, 0xD, 0xE, 0xF] : List Nibble) := by
  decide

/-- Settles O4: the group by the top nibble, and in it the selecting field by the group's own lemma. -/
theorem illegalWordsAreExactlyTheListed : Obligations.IllegalWordsAreExactlyTheListed := by
  intro w
  unfold decodeWord dispatch
  split
  case h_1 hop => simp [hop, dispatch0_eq_none_iff]
  case h_9 hop => simp [hop, dispatch8_eq_none_iff]
  case h_15 hop => simp [hop, dispatchE_eq_none_iff]
  case h_16 hop => simp [hop, dispatchF_eq_none_iff]
  case h_6 hop | h_10 hop => simp [hop]
  case h_2 hop | h_3 hop | h_4 hop | h_5 hop | h_7 hop | h_8 hop | h_11 hop | h_12 hop | h_13 hop | h_14 hop => simp [hop]
  case h_17 =>
    have hall := nibble_mem_all (Fields.ofWord w).op
    simp_all

/-- Settles O5: the words are fixed, so the decoder computes each. -/
theorem sampleWordsDecode : Obligations.SampleWordsDecode := by
  unfold Obligations.SampleWordsDecode
  decide

end Sys2Proof

/-! SUPPORT. What an instruction makes of a state, said once: `effect` is the next state where the check of the instruction
passes, `exec_of_faultOf_none` and `exec_of_faultOf_some` tie it to `exec`. The frame rules of the instructions follow by a case
split on the instruction. -/

namespace Sys2Proof.Machine

/-- The state after a store at `I` whose bytes fit. -/
def stored (s : State) (bytes : List Byte) : State :=
  ({ s with mem := storeBytes s.mem s.i.toNat bytes } : State).advance

/-- What DRW draws: the new framebuffer and the collision. -/
def drawn (x y n : Nibble) (s : State) : Framebuffer × Bool :=
  drawSprite s.fb (s.reg x).toNat (s.reg y).toNat (loadBytes s.mem s.i.toNat n.toNat)

/-- The state after DRW of a sprite that can be read. -/
def afterDraw (x y n : Nibble) (s : State) : State :=
  ({ s with fb := (drawn x y n s).1, drawOccurred := true, pc := s.pc + 2 } : State).setFlag (drawn x y n s).2

/-- The state in a result, `s` if there is none. -/
def nextOr (s : State) : Result → State
  | .next t => t
  | _ => s

/-- The next state of an instruction whose check passes: for the six instructions with a check, what stands after the check; for
the others what `exec` answers. -/
def effect (i : Instr) (s : State) : State :=
  match i with
  | .ret => { s with sp := s.sp - 1, pc := s.stackSlot s.sp.val + 2 }
  | .callNnn nnn => { s with sp := s.sp + 1, stack := s.stack.setIfInBounds s.sp.val s.pc, pc := addrWord nnn }
  | .drwVxVyN x y n => afterDraw x y n s
  | .ldBVx x => stored s (bcdDigits (s.reg x))
  | .ldMemVx x => stored s (s.regsUpTo x)
  | .ldVxMem x => { s with regs := setRegsFrom s.regs 0 (loadBytes s.mem s.i.toNat (x.toNat + 1)), pc := s.pc + 2 }
  | i => nextOr s (exec i s)

/-! ### The six instructions with a check, where it passes -/

theorem exec_ret_effect {s : State} (h : s.sp.val ≠ 0) : exec .ret s = .next (effect .ret s) := by
  obtain ⟨t, hnext⟩ := exec_ret_of_pos h
  obtain ⟨_, sp, hsp, rfl⟩ := execRet_next hnext
  have heq : sp = s.sp - 1 := Fin.ext (by omega)
  rw [hnext, heq]; rfl

theorem exec_callNnn_effect (nnn : Addr12) {s : State} (h : s.sp.val < 16) :
    exec (.callNnn nnn) s = .next (effect (.callNnn nnn) s) := by
  obtain ⟨t, hnext, _⟩ := exec_callNnn_of_lt nnn h
  obtain ⟨hlt, rfl⟩ := execCallNnn_next hnext
  have hsp : (⟨s.sp.val + 1, Nat.succ_lt_succ hlt⟩ : Fin 17) = s.sp + 1 := Fin.ext (by simp; omega)
  have hstack : s.stack.set s.sp.val s.pc hlt = s.stack.setIfInBounds s.sp.val s.pc :=
    Vector.ext fun k hk => by rw [Vector.getElem_set, Vector.getElem_setIfInBounds]
  rw [hnext, hsp, hstack]; rfl

theorem exec_drwVxVyN_of_le {x y n : Nibble} {s : State} (h : n.toNat = 0 ∨ s.i.toNat + n.toNat ≤ 4096) :
    exec (.drwVxVyN x y n) s = .next (afterDraw x y n s) :=
  execDrwVxVyN_of_le h

theorem exec_ldBVx_of_lt {x : Nibble} {s : State} (h : s.i.toNat + 2 < 4096) :
    exec (.ldBVx x) s = .next (stored s (bcdDigits (s.reg x))) :=
  storeAtIndex_of_le h

theorem exec_ldMemVx_of_lt {x : Nibble} {s : State} (h : s.i.toNat + x.toNat < 4096) :
    exec (.ldMemVx x) s = .next (stored s (s.regsUpTo x)) :=
  storeAtIndex_of_le (by rw [length_regsUpTo]; exact h)

/-! ### What an instruction answers -/

/-- A check that names no fault has a condition that does not hold. -/
theorem not_of_check_eq_none {p : Prop} [Decidable p] {f : Fault} (h : (if p then some f else none) = none) : ¬ p :=
  fun hp => nomatch (if_pos hp).symm.trans h

/-- An instruction whose check passes completes, with `effect` the next state (60_exceptions.md R203 to R205). -/
theorem exec_of_faultOf_none {i : Instr} {s : State} (h : faultOf i s = none) : exec i s = .next (effect i s) := by
  cases i with
  | ret => exact exec_ret_effect (not_of_check_eq_none h)
  | callNnn nnn =>
    have hnot := not_of_check_eq_none h
    exact exec_callNnn_effect nnn (by omega)
  | drwVxVyN x y n =>
    have hnot := not_of_check_eq_none h
    exact exec_drwVxVyN_of_le (by omega)
  | ldBVx x => exact exec_ldBVx_of_lt (Nat.lt_succ_of_le (Nat.not_lt.1 (not_of_check_eq_none h)))
  | ldMemVx x => exact exec_ldMemVx_of_lt (Nat.lt_succ_of_le (Nat.not_lt.1 (not_of_check_eq_none h)))
  | ldVxMem x => exact execLdVxMem_of_le (Nat.lt_succ_of_le (Nat.not_lt.1 (not_of_check_eq_none h)))
  | _ => rfl

/-- An instruction whose check fails reports what the check names. -/
theorem exec_of_faultOf_some {i : Instr} {s : State} {f : Fault} (h : faultOf i s = some f) : exec i s = .fault f := by
  cases i with
  | ret =>
    obtain ⟨hempty, rfl⟩ := Option.ite_some_none_eq_some.1 h
    exact exec_ret_of_empty hempty
  | callNnn nnn =>
    obtain ⟨hfull, rfl⟩ := Option.ite_some_none_eq_some.1 h
    exact exec_callNnn_of_full nnn hfull
  | drwVxVyN x y n =>
    obtain ⟨⟨hrows, hgt⟩, rfl⟩ := Option.ite_some_none_eq_some.1 h
    exact execDrwVxVyN_of_gt hrows (by omega)
  | ldBVx x =>
    obtain ⟨hgt, rfl⟩ := Option.ite_some_none_eq_some.1 h
    exact storeAtIndex_of_gt (by simp) (by rw [length_bcdDigits]; omega)
  | ldMemVx x =>
    obtain ⟨hgt, rfl⟩ := Option.ite_some_none_eq_some.1 h
    exact storeAtIndex_of_gt (by simp) (by rw [length_regsUpTo]; omega)
  | ldVxMem x =>
    obtain ⟨hgt, rfl⟩ := Option.ite_some_none_eq_some.1 h
    exact execLdVxMem_of_gt hgt
  | _ => cases h

/-- What an instruction can do, said once. -/
theorem exec_next_iff {i : Instr} {s t : State} : exec i s = .next t ↔ faultOf i s = none ∧ t = effect i s := by
  constructor
  · intro h
    cases hf : faultOf i s with
    | none => rw [exec_of_faultOf_none hf] at h; cases h; exact ⟨rfl, rfl⟩
    | some f => rw [exec_of_faultOf_some hf] at h; cases h
  · rintro ⟨hf, rfl⟩
    exact exec_of_faultOf_none hf

/-- Settles O9: `exec_of_faultOf_none` and `exec_of_faultOf_some`. -/
theorem instructionsCompleteUnlessTheirCheckFails : Obligations.InstructionsCompleteUnlessTheirCheckFails :=
  fun _ _ => ⟨fun h => ⟨_, exec_of_faultOf_none h⟩, fun _ => exec_of_faultOf_some⟩

theorem exec_ne_refused (i : Instr) (s : State) (r : Refusal) : exec i s ≠ .refused r := by
  cases hf : faultOf i s with
  | none => rw [exec_of_faultOf_none hf]; nofun
  | some f => rw [exec_of_faultOf_some hf]; nofun

/-- The checks read the stack pointer and `I` only. -/
theorem faultOf_congr (i : Instr) {s t : State} (hsp : t.sp = s.sp) (hi : t.i = s.i) : faultOf i t = faultOf i s := by
  cases i with
  | ret | callNnn | drwVxVyN | ldBVx | ldMemVx | ldVxMem => simp only [faultOf, hsp, hi]
  | _ => rfl

/-! ### Frame rules -/

/-- CALL and RET alone write the stack or its pointer. -/
theorem effect_keeps_stack {i : Instr} (hcall : ∀ nnn, i ≠ .callNnn nnn) (hret : i ≠ .ret) (s : State) :
    (effect i s).sp = s.sp ∧ (effect i s).stack = s.stack := by
  cases i with
  | callNnn nnn => exact absurd rfl (hcall nnn)
  | ret => exact absurd rfl hret
  | _ => exact ⟨rfl, rfl⟩

/-- Settles O31: CALL and RET by what their completion says, the others by `effect_keeps_stack`. -/
theorem stackPointerMovesOnlyByCallAndReturn : Obligations.StackPointerMovesOnlyByCallAndReturn := by
  intro i s t h
  refine ⟨Nat.le_of_lt_succ t.sp.isLt, ?_⟩
  by_cases hcall : ∃ nnn, i = .callNnn nnn
  · obtain ⟨nnn, rfl⟩ := hcall
    obtain ⟨_, rfl⟩ := execCallNnn_next h
    exact .inl ⟨⟨nnn, rfl⟩, rfl⟩
  by_cases hret : i = .ret
  · subst hret
    obtain ⟨_, sp, hsp, rfl⟩ := execRet_next h
    exact .inr (.inl ⟨rfl, hsp⟩)
  · have hcall' := not_exists.1 hcall
    obtain ⟨_, rfl⟩ := exec_next_iff.1 h
    exact .inr (.inr ⟨hcall', hret, effect_keeps_stack hcall' hret s⟩)

/-- Settles O32: every other instruction's effect has the framebuffer of the state before. -/
theorem framebufferWrittenOnlyByClearAndDraw : Obligations.FramebufferWrittenOnlyByClearAndDraw := by
  intro i s t h hfb
  obtain ⟨_, rfl⟩ := exec_next_iff.1 h
  cases i with
  | cls => exact .inl rfl
  | drwVxVyN x y n => exact .inr ⟨x, y, n, rfl⟩
  | _ => exact absurd rfl hfb

/-- Settles O33: every other instruction's effect has the index register of the state before. -/
theorem indexWrittenOnlyByIndexInstructions : Obligations.IndexWrittenOnlyByIndexInstructions := by
  intro i s t h hi
  obtain ⟨_, rfl⟩ := exec_next_iff.1 h
  cases i with
  | ldINnn nnn => exact .inl ⟨nnn, rfl⟩
  | addIVx x => exact .inr (.inl ⟨x, rfl⟩)
  | ldFVx x => exact .inr (.inr ⟨x, rfl⟩)
  | _ => exact absurd rfl hi

/-- A byte that a run of stored bytes changed lies in the run. -/
theorem mem_range_of_storeBytes_ne {m : Memory} {base a : Nat} {bytes : List Byte}
    (h : Memory.get (storeBytes m base bytes) a ≠ Memory.get m a) : base ≤ a ∧ a < base + bytes.length := by
  by_contra hout
  exact h (get_storeBytes_outside (by omega) m)

/-- Settles O34: the two stores by `mem_range_of_storeBytes_ne`; every other effect has the memory of the state before. -/
theorem memoryWrittenOnlyByStores : Obligations.MemoryWrittenOnlyByStores := by
  intro i s t a h hne
  obtain ⟨_, rfl⟩ := exec_next_iff.1 h
  cases i with
  | ldBVx x =>
    obtain ⟨hle, hlt⟩ := mem_range_of_storeBytes_ne hne
    rw [length_bcdDigits] at hlt
    exact .inl ⟨x, rfl, hle, by omega⟩
  | ldMemVx x =>
    obtain ⟨hle, hlt⟩ := mem_range_of_storeBytes_ne hne
    rw [length_regsUpTo] at hlt
    exact .inr ⟨x, rfl, hle, by omega⟩
  | _ => exact absurd rfl hne

/-- Reading a register after the block V0..VX was written. -/
theorem reg_setRegsFrom_loadBytes (s : State) (m : Memory) (base count : Nat) (j : Nibble) :
    ({ s with regs := setRegsFrom s.regs 0 (loadBytes m base count) } : State).reg j =
      if j.toNat < count then Memory.get m (base + j.toNat) else s.reg j := by
  simp only [State.reg, getElem_setRegsFrom _ _ _ j.isLt, Nat.zero_le, Nat.sub_zero, length_loadBytes, getElem_loadBytes,
    true_and, dite_eq_ite]

/-- Settles O35: each writer by the read-after-write rule of its update; every other effect has the registers of the state
before. -/
theorem registersWrittenOnlyAsNamed : Obligations.RegistersWrittenOnlyAsNamed := by
  intro i s t j h hnot
  obtain ⟨_, rfl⟩ := exec_next_iff.1 h
  cases i with
  | ldVxKk | addVxKk | ldVxVy | orVxVy | andVxVy | xorVxVy | rndVxKk | ldVxDt => exact State.setReg_reg_of_ne _ hnot _
  | addVxVy | subVxVy | shrVx | subnVxVy | shlVx =>
    exact State.setFlagged_reg_other _ (fun e => hnot (.inl e)) (fun e => hnot (.inr e)) _ _
  | drwVxVyN => exact State.setReg_reg_of_ne _ hnot _
  | ldVxMem x =>
    exact (reg_setRegsFrom_loadBytes s s.mem s.i.toNat (x.toNat + 1) j).trans
      (if_neg fun hlt => hnot (Nat.le_of_lt_succ hlt))
  | _ => rfl

theorem effect_keys (i : Instr) (s : State) : (effect i s).keys = s.keys := by
  cases i <;> rfl

/-- LD Vx,K alone changes the mode. -/
theorem effect_keeps_mode {i : Instr} (hwait : ∀ x, i ≠ .ldVxK x) (s : State) :
    (effect i s).mode = s.mode ∧ (effect i s).waitX = s.waitX := by
  cases i with
  | ldVxK x => exact absurd rfl (hwait x)
  | _ => exact ⟨rfl, rfl⟩

/-- Settles O36: `effect_keys` and `effect_keeps_mode`. -/
theorem latchUntouchedAndOnlyKeyWaitSuspends : Obligations.LatchUntouchedAndOnlyKeyWaitSuspends := by
  intro i s t h
  obtain ⟨_, rfl⟩ := exec_next_iff.1 h
  exact ⟨effect_keys i s, fun hwait => effect_keeps_mode hwait s⟩

theorem effect_pc_of_sequential {i : Instr} (hseq : transfersControl i = false) (s : State) :
    (effect i s).pc = s.pc + 2 := by
  cases i with
  | ret | jpNnn | callNnn | seVxKk | sneVxKk | seVxVy | sneVxVy | jpV0Nnn | skpVx | sknpVx | ldVxK => cases hseq
  | _ => rfl

/-- Settles O37: `effect_pc_of_sequential`. -/
theorem sequentialInstructionsAdvanceByTwo : Obligations.SequentialInstructionsAdvanceByTwo := by
  intro i s t h hseq
  obtain ⟨_, rfl⟩ := exec_next_iff.1 h
  exact effect_pc_of_sequential hseq s

theorem effect_drawOccurred_iff (i : Instr) {s : State} (hclear : s.drawOccurred = false) :
    (effect i s).drawOccurred = true ↔ ∃ x y n, i = .drwVxVyN x y n := by
  cases i with
  | drwVxVyN x y n => exact ⟨fun _ => ⟨x, y, n, rfl⟩, fun _ => rfl⟩
  | _ =>
    refine ⟨fun h => ?_, nofun⟩
    cases hclear.symm.trans h

/-- Settles O38: the step clears the output and `effect_drawOccurred_iff` says who sets it. -/
theorem drawReportedExactlyByDraw : Obligations.DrawReportedExactlyByDraw := by
  intro s t w i hrun hfetch hdec h
  rw [applyEvent, engineStep_of_decode hrun hfetch hdec] at h
  obtain ⟨_, rfl⟩ := exec_next_iff.1 h
  exact effect_drawOccurred_iff i rfl

/-- A tick before an instruction that touches no timer is a tick after it. -/
theorem effect_tick {i : Instr} (huntimed : touchesTimer i = false) (s : State) : effect i (tick s) = tick (effect i s) := by
  cases i with
  | ldVxDt | ldDtVx | ldStVx => cases huntimed
  | _ => rfl

/-- Settles O19: a tick changes no check (`faultOf_congr`) and commutes with the effect (`effect_tick`). -/
theorem tickCommutesWithUntimedInstructions : Obligations.TickCommutesWithUntimedInstructions := by
  intro i s huntimed
  have hcheck : faultOf i (tick s) = faultOf i s := faultOf_congr i rfl rfl
  cases hf : faultOf i s with
  | none => rw [exec_of_faultOf_none hf, exec_of_faultOf_none (hcheck.trans hf), effect_tick huntimed]
  | some f => rw [exec_of_faultOf_some hf, exec_of_faultOf_some (hcheck.trans hf)]

end Sys2Proof.Machine

/-! SUPPORT. The steps of the model: which event comes, what a step request reports, the invariant, and the host events. -/

namespace Sys2Proof.Machine

/-! ### The step -/

theorem step_of_nextEvent {s : State} {e : Event} (h : nextEvent s = e) : step s = applyEvent e (consumeEvent s) :=
  h ▸ rfl

/-- Settles O59: a listed event by `step_of_cons`, a free one by `nextEvent_of_nil`. -/
theorem eachStepTakesTheNextEvent : Obligations.EachStepTakesTheNextEvent :=
  fun s => ⟨fun _ _ => step_of_cons, fun h => by rw [step, nextEvent_of_nil h, consumeEvent_of_nil h]⟩

/-- Settles O7: the step applies the request, and `engineStep_of_decode` runs the instruction. -/
theorem stepRunsTheDecodedInstruction : Obligations.StepRunsTheDecodedInstruction := by
  intro s w i hnext hrun hfetch hdec
  rw [step_of_nextEvent hnext]
  exact engineStep_of_decode ((consumeEvent_mode s).trans hrun) ((fetch_consumeEvent s).trans hfetch) hdec

/-- Settles O11: `engineStep_of_wait` in the state with the request used up. -/
theorem waitingEngineTakesNoStep : Obligations.WaitingEngineTakesNoStep := by
  intro s hwait hnext
  rw [step_of_nextEvent hnext]
  exact engineStep_of_wait ((consumeEvent_mode s).trans hwait)

/-- A step request in RUN reports a word that is no instruction (60_exceptions.md R202). -/
theorem engineStep_of_no_decode {s : State} {w : Word} (hm : s.mode = .run) (hf : fetch s = .ok w)
    (hd : decodeWord w = none) : engineStep s = .fault (.decodeFailure w s.pc) := by
  unfold engineStep; simp only [hm, hf, hd, State.raise]

/-- Settles O8: one law of the step request for each check. -/
theorem firstFailingCheckIsReported : Obligations.FirstFailingCheckIsReported := by
  refine fun s hrun => ⟨fun f => engineStep_of_fetch_error hrun, fun w => engineStep_of_no_decode hrun,
    fun w i f hfetch hdec hcheck => ?own⟩
  case own =>
    rw [applyEvent, engineStep_of_decode hrun hfetch hdec]
    exact exec_of_faultOf_some ((faultOf_congr i rfl rfl).trans hcheck)

theorem engineStep_ne_refused (s : State) (r : Refusal) : engineStep s ≠ .refused r := by
  cases hm : s.mode with
  | waitKey => rw [engineStep_of_wait hm]; nofun
  | run =>
    cases hf : fetch s with
    | error f => rw [engineStep_of_fetch_error hm hf]; nofun
    | ok w =>
      cases hd : decodeWord w with
      | none => rw [engineStep_of_no_decode hm hf hd]; nofun
      | some i => rw [engineStep_of_decode hm hf hd]; exact exec_ne_refused i _ r

/-- A load inside the program area writes the image. -/
theorem loadProgram_of_le {bytes : List Byte} (h : bytes.length ≤ 3584) (s : State) :
    loadProgram bytes s = .next { s with mem := storeBytes s.mem 0x200 bytes } :=
  if_neg (Nat.not_lt_of_le h)

/-- A larger image is reported with its size. -/
theorem loadProgram_of_gt {bytes : List Byte} (h : 3584 < bytes.length) (s : State) :
    loadProgram bytes s = .fault (.programLoadError bytes.length) :=
  if_pos h

theorem loadProgram_ne_refused (bytes : List Byte) (s : State) (r : Refusal) : loadProgram bytes s ≠ .refused r := by
  obtain hgt | hle := Nat.lt_or_ge 3584 bytes.length
  · rw [loadProgram_of_gt hgt]; nofun
  · rw [loadProgram_of_le hle]; nofun

/-- Settles O10: a step request by `engineStep_ne_refused`, a load by `loadProgram_ne_refused`; the other events always answer a
next state. -/
theorem noStepIsRefused : Obligations.NoStepIsRefused := by
  intro s r
  rw [step]
  cases nextEvent s with
  | stepRequest => exact engineStep_ne_refused _ r
  | loadProgram bytes => exact loadProgram_ne_refused bytes _ r
  | tick | setKey | initialise => nofun

/-! ### The output bit -/

theorem sameButDrawOutput_refl (a : Result) : SameButDrawOutput a a := by
  cases a <;> rfl

theorem mode_eq_waitKey_or_run (s : State) : s.mode = .waitKey ∨ s.mode = .run := by
  cases s.mode with
  | waitKey => exact .inl rfl
  | run => exact .inr rfl

/-- A step request in RUN clears the output before it runs an instruction. -/
theorem engineStep_drawOccurred_of_run {s : State} (hm : s.mode = .run) (b : Bool) :
    engineStep { s with drawOccurred := b } = engineStep s := by
  unfold engineStep; simp only [hm]; rfl

theorem engineStep_sameButDrawOutput (s : State) (b : Bool) :
    SameButDrawOutput (engineStep s) (engineStep { s with drawOccurred := b }) := by
  obtain hm | hm := mode_eq_waitKey_or_run s
  · rw [engineStep_of_wait hm, engineStep_of_wait (s := { s with drawOccurred := b }) hm]; rfl
  · rw [engineStep_drawOccurred_of_run hm b]; exact sameButDrawOutput_refl _

theorem setKeyEvent_drawOccurred (k : Nibble) (pressed : Bool) (s : State) (b : Bool) :
    setKeyEvent k pressed { s with drawOccurred := b } = { setKeyEvent k pressed s with drawOccurred := b } := by
  obtain ⟨hwait, h⟩ | ⟨hwait, h⟩ := setKeyEvent_cases k pressed s <;>
    obtain ⟨hwait', h'⟩ | ⟨hwait', h'⟩ := setKeyEvent_cases k pressed { s with drawOccurred := b }
  · rw [h, h']; rfl
  · exact absurd hwait hwait'
  · exact absurd hwait' hwait
  · rw [h, h']; rfl

theorem applyEvent_sameButDrawOutput (e : Event) (s : State) (b : Bool) :
    SameButDrawOutput (applyEvent e s) (applyEvent e { s with drawOccurred := b }) := by
  cases e with
  | stepRequest => exact engineStep_sameButDrawOutput s b
  | tick | initialise => rfl
  | setKey k pressed => simp only [applyEvent, setKeyEvent_drawOccurred]; rfl
  | loadProgram bytes =>
    obtain hgt | hle := Nat.lt_or_ge 3584 bytes.length
    · simp only [applyEvent, loadProgram_of_gt hgt]; rfl
    · simp only [applyEvent, loadProgram_of_le hle]; rfl

/-- Settles O39: the output bit changes neither the next event nor what each event does (`applyEvent_sameButDrawOutput`). -/
theorem drawOutputIsReadByNothing : Obligations.DrawOutputIsReadByNothing := by
  intro s b
  have hcons : consumeEvent { s with drawOccurred := b } = { consumeEvent s with drawOccurred := b } := by
    unfold consumeEvent; simp only; split <;> rfl
  have hnext : nextEvent { s with drawOccurred := b } = nextEvent s := rfl
  rw [step, step, hnext, hcons]
  exact applyEvent_sameButDrawOutput _ _ _

/-! ### The invariant -/

/-- Settles O15: nothing is listed, `pc` is 0x200 and every slot is 0. -/
theorem resetMeetsInvariant : Obligations.ResetMeetsInvariant where
  mem_wf := rfl
  pc_le := by decide
  stack_le k h := by simp [State.reset]
  wait_pc_le := nofun

/-- A stacked address is fetchable. -/
theorem stackSlot_toNat_le {s : State} (hs : s.Inv) (k : Nat) : (s.stackSlot k).toNat ≤ 0xFFE := by
  by_cases hk : k - 1 < 16
  · simpa [State.stackSlot, Vector.getD, hk] using hs.stack_le (k - 1) hk
  · simp [State.stackSlot, Vector.getD, hk]

@[simp] theorem toNat_addrWord (nnn : Addr12) : (addrWord nnn).toNat = nnn.toNat := by
  simp [addrWord]; omega

@[simp] theorem toNat_byteWord (v : Byte) : (byteWord v).toNat = v.toNat := by
  simp [byteWord]; omega

theorem toNat_skipIf_pc_le {s : State} (hpc : s.pc.toNat ≤ 0xFFE) (test : Bool) : (s.skipIf test).pc.toNat ≤ 0x1002 := by
  rw [State.skipIf_pc]
  cases test with
  | true => rw [if_pos rfl]; bv_omega
  | false => rw [if_neg Bool.false_ne_true]; bv_omega

/-- An instruction fetched from a fetchable address leaves `pc` at most 0x10FE: JP V0,nnn reaches furthest. -/
theorem effect_pc_le {s : State} (hs : s.Inv) (hpc : s.pc.toNat ≤ 0xFFE) (i : Instr) : (effect i s).pc.toNat ≤ 0x10FE := by
  cases i with
  | ret =>
    have hslot := stackSlot_toNat_le hs s.sp.val
    show (s.stackSlot s.sp.val + 2).toNat ≤ _
    bv_omega
  | jpNnn nnn | callNnn nnn =>
    show (addrWord nnn).toNat ≤ _
    rw [toNat_addrWord]; omega
  | seVxKk | sneVxKk | seVxVy | sneVxVy | skpVx | sknpVx => exact (toNat_skipIf_pc_le hpc _).trans (by decide)
  | jpV0Nnn nnn =>
    show (addrWord nnn + byteWord (s.reg 0)).toNat ≤ _
    rw [BitVec.toNat_add, toNat_addrWord, toNat_byteWord]; omega
  | ldVxK => exact hs.pc_le
  | _ =>
    show (s.pc + 2).toNat ≤ _
    bv_omega

theorem effect_stack_le {s : State} (hs : s.Inv) (hpc : s.pc.toNat ≤ 0xFFE) (i : Instr) (k : Nat) (hk : k < 16) :
    ((effect i s).stack[k]).toNat ≤ 0xFFE := by
  cases i with
  | callNnn nnn =>
    simp only [effect, Vector.getElem_setIfInBounds]
    split
    · exact hpc
    · exact hs.stack_le k hk
  | _ => exact hs.stack_le k hk

theorem effect_mem_wf {s : State} (hs : s.Inv) {i : Instr} (hcheck : faultOf i s = none) : (effect i s).mem.wf = true := by
  cases i with
  | ldBVx x =>
    exact storeBytes_wf hs.mem_wf (Nat.succ_le_succ (Nat.not_lt.1 (not_of_check_eq_none hcheck)))
  | ldMemVx x =>
    have hfits := Nat.succ_le_succ (Nat.not_lt.1 (not_of_check_eq_none hcheck))
    exact storeBytes_wf hs.mem_wf (by rw [length_regsUpTo]; exact hfits)
  | _ => exact hs.mem_wf

/-- An instruction that completes in RUN from a fetchable address keeps the invariant. -/
theorem exec_keeps_inv {i : Instr} {s t : State} (hs : s.Inv) (hrun : s.mode = .run) (hpc : s.pc.toNat ≤ 0xFFE)
    (h : exec i s = .next t) : t.Inv := by
  obtain ⟨hcheck, rfl⟩ := exec_next_iff.1 h
  refine ⟨effect_mem_wf hs hcheck, effect_pc_le hs hpc i, effect_stack_le hs hpc i, fun hwait => ?_⟩
  cases i with
  | ldVxK x => exact hpc
  | _ => cases hrun.symm.trans hwait

theorem engineStep_keeps_inv {s t : State} (hs : s.Inv) (h : engineStep s = .next t) : t.Inv := by
  obtain ⟨_, rfl⟩ | ⟨hrun, w, i, hfetch, _, hexec⟩ := engineStep_cases h
  · exact hs
  · have hclear : State.Inv { s with drawOccurred := false } := ⟨hs.mem_wf, hs.pc_le, hs.stack_le, hs.wait_pc_le⟩
    exact exec_keeps_inv hclear hrun (Nat.le_of_lt_succ (pc_lt_of_fetch hfetch)) hexec

theorem setKeyEvent_keeps_inv {s : State} (hs : s.Inv) (k : Nibble) (pressed : Bool) : (setKeyEvent k pressed s).Inv := by
  obtain ⟨⟨hwait, _⟩, h⟩ | ⟨_, h⟩ := setKeyEvent_cases k pressed s <;> rw [h]
  · have hpc := hs.wait_pc_le hwait
    refine ⟨hs.mem_wf, ?_, hs.stack_le, nofun⟩
    show (s.pc + 2).toNat ≤ _
    bv_omega
  · exact ⟨hs.mem_wf, hs.pc_le, hs.stack_le, hs.wait_pc_le⟩

theorem loadProgram_keeps_inv {bytes : List Byte} {s t : State} (hs : s.Inv) (h : loadProgram bytes s = .next t) :
    t.Inv := by
  obtain ⟨hle, rfl⟩ := loadProgram_next h
  exact ⟨storeBytes_wf hs.mem_wf (by simp; omega), hs.pc_le, hs.stack_le, hs.wait_pc_le⟩

theorem applyEvent_keeps_inv {e : Event} {s t : State} (hs : s.Inv) (h : applyEvent e s = .next t) : t.Inv := by
  cases e with
  | stepRequest => exact engineStep_keeps_inv hs h
  | tick => cases h; exact ⟨hs.mem_wf, hs.pc_le, hs.stack_le, hs.wait_pc_le⟩
  | setKey k pressed => cases h; exact setKeyEvent_keeps_inv hs k pressed
  | initialise =>
    cases h
    have hreset : State.reset.Inv := resetMeetsInvariant
    exact ⟨hreset.mem_wf, hreset.pc_le, hreset.stack_le, hreset.wait_pc_le⟩
  | loadProgram bytes => exact loadProgram_keeps_inv hs h

theorem consumeEvent_inv {s : State} (hs : s.Inv) : (consumeEvent s).Inv := by
  rw [consumeEvent_frame]
  exact ⟨hs.mem_wf, hs.pc_le, hs.stack_le, hs.wait_pc_le⟩

/-- Settles O16: each event keeps the invariant (`applyEvent_keeps_inv`), and using one up does. -/
theorem stepKeepsInvariant : Obligations.StepKeepsInvariant :=
  fun _ _ hs h => applyEvent_keeps_inv (consumeEvent_inv hs) h

end Sys2Proof.Machine

/-! SUPPORT. The host events and the clock (60_exceptions.md R216 to R224), the placed instruction, and the reset state. -/

namespace Sys2Proof.Machine

/-! ### Ticks -/

/-- Settles O18: induction on the number of ticks, with `toNat_decrement` for one of them. -/
theorem ticksCountDownToZero : Obligations.TicksCountDownToZero := by
  intro n
  induction n with
  | zero => exact fun s => ⟨rfl, rfl, rfl⟩
  | succ n ih =>
    intro s
    obtain ⟨hdt, hst, hframe⟩ := ih (tick s)
    have hdt' : (tick s).dt.toNat = s.dt.toNat - 1 := toNat_decrement s.dt
    have hst' : (tick s).st.toNat = s.st.toNat - 1 := toNat_decrement s.st
    exact ⟨by rw [ticks]; omega, by rw [ticks]; omega, hframe⟩

theorem run_succ_of_next {n : Nat} {s t : State} (h : step s = .next t) :
    Host.Core.run core (n + 1) s = Host.Core.run core n t := by
  have h' : core.step s = .next t := h
  simp only [Host.Core.run, h']

/-- Listed ticks are run one by one, and each only ticks. -/
theorem run_ticks (n : Nat) (es : List Event) (s : State) :
    Host.Core.run core n { s with inputs := List.replicate n .tick ++ es } = .next { ticks n s with inputs := es } := by
  induction n generalizing s with
  | zero => rfl
  | succ n ih => exact (run_succ_of_next (step_of_cons (e := .tick) rfl)).trans (ih (tick s))

/-- Settles O60: `run_ticks` with the list of the state itself. -/
theorem anyNumberOfTicksMayComeNext : Obligations.AnyNumberOfTicksMayComeNext := by
  intro n es s hinputs
  rw [← run_ticks n es s, ← hinputs]

/-! ### Key events -/

/-- The completion of the pending LD Vx,K, field by field. -/
theorem completeWait_reg (k j : Nibble) (s : State) :
    (completeWait k s).reg j = if j = s.waitX then keyByte k else s.reg j :=
  State.setReg_reg (s.setKey k true) s.waitX j (keyByte k)

theorem completeWait_key (k j : Nibble) (s : State) : (completeWait k s).key j = if j = k then true else s.key j :=
  State.setKey_key s k j true

theorem setKeyEvent_key (k j : Nibble) (pressed : Bool) (s : State) :
    (setKeyEvent k pressed s).key j = if j = k then pressed else s.key j := by
  obtain ⟨⟨_, rfl, _⟩, h⟩ | ⟨_, h⟩ := setKeyEvent_cases k pressed s <;> rw [h]
  · exact completeWait_key k j s
  · exact State.setKey_key s k j pressed

theorem setKeyEvent_of_completes {k : Nibble} {s : State} (hwait : s.mode = .waitKey) (hkey : s.key k = false) :
    setKeyEvent k true s = completeWait k s := by
  obtain ⟨_, h⟩ | ⟨hnot, _⟩ := setKeyEvent_cases k true s
  · exact h
  · exact absurd ⟨hwait, rfl, hkey⟩ hnot

/-- Settles O20: the latch by `setKeyEvent_key`, the rest by whether the event completes the wait. -/
theorem keyEventsFollowTheLatchTable : Obligations.KeyEventsFollowTheLatchTable := by
  intro k pressed s hnext
  refine ⟨setKeyEvent k pressed (consumeEvent s), by rw [step_of_nextEvent hnext]; rfl, ?_, fun j hj => ?_, ?_⟩
  · rw [setKeyEvent_key, if_pos rfl]
  · rw [setKeyEvent_key, if_neg hj, consumeEvent_key]
  · have hcases := setKeyEvent_cases k pressed (consumeEvent s)
    rw [consumeEvent_mode, consumeEvent_key] at hcases
    obtain ⟨hends, h⟩ | ⟨hnot, h⟩ := hcases
    · rw [if_pos hends, h]
      refine ⟨?_, fun j hj => ?_, ?_, rfl, rfl⟩
      · rw [completeWait_reg, consumeEvent_waitX, if_pos rfl]; rfl
      · rw [completeWait_reg, consumeEvent_waitX, if_neg hj, consumeEvent_reg]
      · exact congrArg (· + 2) (consumeEvent_pc s)
    · rw [if_neg hnot, h]; rfl

/-! ### Initialise and the program load -/

/-- Settles O21: initialise keeps the counts and the list that are left once its event is used up. -/
theorem initialiseGivesResetState : Obligations.InitialiseGivesResetState := by
  intro s hnext
  rw [step_of_nextEvent hnext, ← consumeEvent_draws s]; rfl

/-- Settles O14: memory lists nothing, so it reads as `resetByte`; every other field is written out. -/
theorem resetStateIsAsSpecified : Obligations.ResetStateIsAsSpecified := by
  refine ⟨fun a _ => rfl, fun a ha => ?_, fun k => ?_, rfl, rfl, rfl, fun k h1 h16 => ?_, rfl, rfl, fun row col => ?_,
    fun k => ?_, rfl⟩
  · exact List.getD_eq_default _ _ (show fontTable.length ≤ a from ha)
  · exact Vector.getElem_replicate _
  · obtain ⟨k, rfl⟩ := Nat.exists_eq_add_of_le' h1
    rw [stackSlot_succ _ h16]; exact Vector.getElem_replicate _
  · exact pixel_blank row col
  · exact Vector.getElem_replicate _

/-- Settles O22: `loadProgram_of_le` with the laws of `storeBytes`, and `loadProgram_of_gt`. -/
theorem loadProgramInstallsTheImage : Obligations.LoadProgramInstallsTheImage := by
  intro s bytes hwf hnext
  rw [step_of_nextEvent hnext]
  refine ⟨fun hle => ⟨_, loadProgram_of_le hle _, fun j hj => ?inside, fun a ha => ?outside, rfl⟩,
    fun hgt => loadProgram_of_gt hgt _⟩
  case inside => exact get_storeBytes_inside (by rwa [consumeEvent_mem]) (Nat.add_le_add_left hle 0x200) hj
  case outside => rw [get_storeBytes_outside ha, consumeEvent_mem]

/-! ### The placed instruction -/

/-- The two bytes of a word stored where `pc` can be fetched from are what the fetch reads. -/
theorem fetch_storeWordAtPc {s : State} (hwf : s.mem.wf = true) (hpc : s.pc.toNat + 1 < 4096) (w : Word) :
    fetch (storeWordAtPc s w) = .ok w := by
  have hlen : s.pc.toNat + [highByte w, lowByte w].length ≤ Config.memSize := by simp; omega
  have hhi := get_storeBytes_inside hwf hlen (k := 0) (by simp)
  have hlo := get_storeBytes_inside hwf hlen (k := 1) (by simp)
  rw [fetch_of_lt (s := storeWordAtPc s w) (show s.pc.toNat < 4095 by omega)]
  exact congrArg _ ((congrArg₂ wordOfBytes hhi hlo).trans (wordOfBytes_bytes w))

theorem readyToFetch_pc_lt (s : State) : (readyToFetch s).pc.toNat + 1 < 4096 := by
  by_cases h : s.pc.toNat + 1 < Config.memSize
  · simp [readyToFetch, h]
  · simp [readyToFetch, h, State.reset]

/-- Settles O12: the placed word is fetched (`fetch_storeWordAtPc`) and decodes to its instruction (`decodeWord_encode`). -/
theorem placedInstructionRunsNext : Obligations.PlacedInstructionRunsNext := by
  intro s i hwf
  have hfetch : fetch (s.withFetchWord 16 (encode i).toNat) = .ok (encode i) := by
    rw [State.withFetchWord, tableWord_toNat]
    exact fetch_storeWordAtPc (s := readyToFetch s) hwf (readyToFetch_pc_lt s) _
  rw [step_of_cons (s := s.withFetchWord 16 (encode i).toNat) (e := .stepRequest) (es := s.inputs) rfl]
  exact engineStep_of_decode (s := { s.withFetchWord 16 (encode i).toNat with inputs := s.inputs }) rfl hfetch
    (decodeWord_encode i)

end Sys2Proof.Machine

/-! SUPPORT. The instructions one by one: what each writes, as a value of the spec, and that it leaves the rest. The frame of a
write is one lemma per shared operation. -/

namespace Sys2Proof.Machine

/-! ### Jumps, calls, returns and key skips -/

/-- A jump changes `pc` only. -/
theorem onlyPc_jump (s : State) (target : Word) : OnlyPc s (s.jump target) := ⟨rfl, fun _ => rfl⟩

/-- Settles O23: the targets of the two jumps, whose sum is below 65536. -/
theorem jumpsSetTheProgramCounter : Obligations.JumpsSetTheProgramCounter := by
  refine fun nnn s => ⟨⟨_, rfl, toNat_addrWord nnn, onlyPc_jump s _⟩, ⟨_, rfl, ?_, onlyPc_jump s _⟩⟩
  rw [State.jump_pc, BitVec.toNat_add, toNat_addrWord, toNat_byteWord]
  omega

/-- Settles O25: `lowNibble` is VX modulo 16, and a skip changes `pc` only. -/
theorem keySkipsTestTheLatch : Obligations.KeySkipsTestTheLatch := by
  intro x k s hk
  have hkey : s.keyOf x = k := BitVec.eq_of_toNat_eq (by simp [State.keyOf, lowNibble, hk])
  refine ⟨⟨_, rfl, ?_, onlyPc_jump s _⟩, ⟨_, rfl, ?_, onlyPc_jump s _⟩⟩
  · rw [State.skipIf_pc, hkey]
  · rw [State.skipIf_pc, hkey, if_congr (Bool.not_eq_true' (s.key k)).to_iff rfl rfl]

/-- Settles O26: `push_of_lt` says what the push does, the jump changes `pc` only. -/
theorem callPushesItsOwnAddress : Obligations.CallPushesItsOwnAddress := by
  intro nnn s hroom
  obtain ⟨u, hpush, hsp, htop, hothers, hframe⟩ := push_of_lt hroom s.pc
  have hexec : exec (.callNnn nnn) s = .next (u.jump (addrWord nnn)) := by simp only [exec, execCallNnn, hpush]
  refine ⟨_, hexec, toNat_addrWord nnn, hsp, htop, hothers, ?_, fun a => ?_⟩
  · rw [hframe]; rfl
  · rw [hframe]; rfl

/-- Settles O27: `execRet_next`. -/
theorem returnPopsAndAdvances : Obligations.ReturnPopsAndAdvances := by
  intro s hpos
  obtain ⟨t, hexec⟩ := exec_ret_of_pos hpos
  obtain ⟨_, sp, hsp, rfl⟩ := execRet_next hexec
  exact ⟨_, hexec, rfl, hsp, rfl, fun _ => rfl⟩

/-- Settles O30: RET reads the slot that `push_of_lt` says CALL wrote, and the slots below are those of before. -/
theorem returnUndoesCall : Obligations.ReturnUndoesCall := by
  intro nnn s t u hcall husp hustack
  obtain ⟨hroom, _⟩ := execCallNnn_next hcall
  obtain ⟨t', hcall', _, hsp, htop, hothers, _⟩ := callPushesItsOwnAddress nnn s hroom
  cases hcall.symm.trans hcall'
  have hslot : ∀ k, u.stackSlot k = t.stackSlot k := fun k => congrArg (·.getD (k - 1) 0) hustack
  obtain ⟨v, hret, hpc, hvsp, hframe, _⟩ := returnPopsAndAdvances u (by rw [husp]; omega)
  refine ⟨v, hret, ?_, Fin.ext ?_, fun k h1 hk => ?_⟩
  · rw [hpc, hslot, husp, htop]
  · rw [husp] at hvsp; omega
  · have hv : v.stackSlot k = u.stackSlot k := by rw [hframe]; rfl
    rw [hv, hslot, hothers k h1 (by omega) (by omega)]

/-! ### Register writes -/

/-- The frame of the instructions that write VX alone. -/
theorem setReg_advance_frame (s : State) (x : Nibble) (v : Byte) :
    (∀ j, j ≠ x → (s.setReg x v).advance.reg j = s.reg j) ∧ (s.setReg x v).advance.pc = s.pc + 2 ∧
      OnlyRegsPc s (s.setReg x v).advance :=
  ⟨fun _ hj => State.setReg_reg_of_ne s hj v, rfl, rfl, fun _ => rfl⟩

theorem setReg_advance_reg (s : State) (x : Nibble) (v : Byte) : (s.setReg x v).advance.reg x = v :=
  State.setReg_reg_self s x v

/-- The frame of the instructions that write VF, then VX. -/
theorem setFlagged_advance_frame (s : State) (x : Nibble) (b : Bool) (v : Byte) :
    (∀ j, j ≠ x → j ≠ 15 → (s.setFlagged x b v).advance.reg j = s.reg j) ∧
      (s.setFlagged x b v).advance.pc = s.pc + 2 ∧ OnlyRegsPc s (s.setFlagged x b v).advance :=
  ⟨fun _ hx hf => State.setFlagged_reg_other s hx hf b v, rfl, rfl, fun _ => rfl⟩

theorem setFlagged_advance_reg (s : State) (x : Nibble) (b : Bool) (v : Byte) : (s.setFlagged x b v).advance.reg x = v :=
  State.setFlagged_reg_self s x b v

theorem setFlagged_advance_flag (s : State) {x : Nibble} (h : x ≠ 15) (b : Bool) (v : Byte) :
    (s.setFlagged x b v).advance.reg 15 = flagByte b :=
  State.setFlagged_reg_flag s h b v

/-- Settles O40: both write VX alone. -/
theorem loadsCopyIntoTheRegister : Obligations.LoadsCopyIntoTheRegister :=
  fun x s => ⟨fun _ => ⟨_, rfl, setReg_advance_reg s x _, setReg_advance_frame s x _⟩,
    fun _ => ⟨_, rfl, setReg_advance_reg s x _, setReg_advance_frame s x _⟩⟩

/-- The stored sum is the sum modulo 256. -/
theorem toNat_addResult (a b : Byte) : (addResult a b).toNat = (a.toNat + b.toNat) % 256 := BitVec.toNat_ofNat _ _

/-- The stored difference is the difference modulo 256. -/
theorem toNat_subResult (a b : Byte) : (subResult a b).toNat = (a.toNat + 256 - b.toNat) % 256 := by
  rw [subResult, BitVec.toNat_sub]; omega

/-- Settles O41: it writes VX alone, with `toNat_addResult`. -/
theorem addImmediateWritesNoFlag : Obligations.AddImmediateWritesNoFlag := by
  refine fun x kk s => ⟨_, rfl, ?_, setReg_advance_frame s x _⟩
  rw [setReg_advance_reg, toNat_addResult]

/-- Settles O42: each writes VX alone, with the bits of the operation. -/
theorem logicWorksBitByBit : Obligations.LogicWorksBitByBit := by
  refine fun x y s => ⟨⟨_, rfl, fun b => ?or, setReg_advance_frame s x _⟩,
    ⟨_, rfl, fun b => ?and, setReg_advance_frame s x _⟩, ⟨_, rfl, fun b => ?xor, setReg_advance_frame s x _⟩⟩
  case or => rw [setReg_advance_reg, BitVec.getLsbD_or]
  case and => rw [setReg_advance_reg, BitVec.getLsbD_and]
  case xor => rw [setReg_advance_reg, BitVec.getLsbD_xor]

/-- Settles O43: VF is written, then VX, with `toNat_addResult`. -/
theorem addSetsTheCarry : Obligations.AddSetsTheCarry := by
  refine fun x y s => ⟨_, rfl, ?sum, fun hx => ?carry, setFlagged_advance_frame s x _ _⟩
  case sum => rw [setFlagged_advance_reg, toNat_addResult]
  case carry => rw [setFlagged_advance_flag s hx]; exact flagByte_decide _

/-- Settles O44: VF is written, then VX, with `toNat_subResult`. -/
theorem subtractsSetTheStrictFlag : Obligations.SubtractsSetTheStrictFlag := by
  refine fun x y s => ⟨⟨_, rfl, ?sub, fun hx => ?subFlag, setFlagged_advance_frame s x _ _⟩,
    ⟨_, rfl, ?subn, fun hx => ?subnFlag, setFlagged_advance_frame s x _ _⟩⟩
  case sub => rw [setFlagged_advance_reg, toNat_subResult]
  case subn => rw [setFlagged_advance_reg, toNat_subResult]
  case subFlag => rw [setFlagged_advance_flag s hx]; exact flagByte_decide _
  case subnFlag => rw [setFlagged_advance_flag s hx]; exact flagByte_decide _

theorem toNat_flagByte (b : Bool) : (flagByte b).toNat = b.toNat := by
  cases b <;> rfl

/-- The flag of SHR is the remainder modulo 2. -/
theorem toNat_shrFlag (v : Byte) : (flagByte (shrFlag v)).toNat = v.toNat % 2 := by
  rw [toNat_flagByte, shrFlag, BitVec.getLsbD, Nat.toNat_testBit, pow_zero, Nat.div_one]

/-- The flag of SHL is the quotient by 128. -/
theorem toNat_shlFlag (v : Byte) : (flagByte (shlFlag v)).toNat = v.toNat / 128 := by
  rw [toNat_flagByte, shlFlag, BitVec.getLsbD, Nat.toNat_testBit]; omega

theorem toNat_shrResult (v : Byte) : (shrResult v).toNat = v.toNat / 2 := by
  rw [shrResult, BitVec.toNat_ofNat]; omega

theorem toNat_shlResult (v : Byte) : (shlResult v).toNat = 2 * v.toNat % 256 := BitVec.toNat_ofNat _ _

/-- Settles O45: VF is written, then VX; `Y` is in neither value. -/
theorem shiftsSetTheBitShiftedOut : Obligations.ShiftsSetTheBitShiftedOut := by
  refine fun x y s => ⟨⟨_, rfl, ?shr, fun hx => ?shrFlag, setFlagged_advance_frame s x _ _⟩,
    ⟨_, rfl, ?shl, fun hx => ?shlFlag, setFlagged_advance_frame s x _ _⟩⟩
  case shr => rw [setFlagged_advance_reg, toNat_shrResult]
  case shl => rw [setFlagged_advance_reg, toNat_shlResult]
  case shrFlag => rw [setFlagged_advance_flag s hx, toNat_shrFlag]
  case shlFlag => rw [setFlagged_advance_flag s hx, toNat_shlFlag]

/-- Settles O46: VX alone is written and one draw counted. -/
theorem randomByteIsMasked : Obligations.RandomByteIsMasked := by
  intro x kk s
  have hreg : ((s.setReg x (s.randomByte &&& kk)).countDraw.advance).reg x = s.randomByte &&& kk :=
    State.setReg_reg_self s x _
  refine ⟨_, rfl, hreg, fun b hb => ?_, rfl, fun j hj => State.setReg_reg_of_ne s hj _, rfl, rfl, fun _ => rfl⟩
  rw [hreg, BitVec.getLsbD_and, hb, Bool.and_false]

/-! ### Index, timers, screen and key wait -/

theorem onlyIndexPc_setIndex_advance (s : State) (v : Word) : OnlyIndexPc s (s.setIndex v).advance :=
  ⟨rfl, fun _ => rfl⟩

/-- The address of a glyph is five times the low nibble. -/
theorem toNat_fontAddress (v : Byte) : (fontAddress v).toNat = 5 * (v.toNat % 16) := by
  simp [fontAddress, lowNibble]; omega

/-- Settles O47: each writes `I` alone. -/
theorem indexInstructionsSetTheIndex : Obligations.IndexInstructionsSetTheIndex := by
  refine fun s => ⟨fun nnn => ⟨_, rfl, toNat_addrWord nnn, rfl, onlyIndexPc_setIndex_advance s _⟩,
    fun x => ⟨_, rfl, ?add, rfl, onlyIndexPc_setIndex_advance s _⟩,
    fun x => ⟨_, rfl, toNat_fontAddress _, rfl, onlyIndexPc_setIndex_advance s _⟩⟩
  case add => rw [State.advance_i, State.setIndex_i, BitVec.toNat_add, toNat_byteWord]

/-- Settles O53: `pixel_blank`. -/
theorem clearBlanksTheScreen : Obligations.ClearBlanksTheScreen :=
  fun _ => ⟨_, rfl, pixel_blank, rfl, rfl, fun _ => rfl⟩

/-- Settles O56: LD Vx,DT writes VX alone, the other two one timer. -/
theorem timerInstructionsCopyTheCounter : Obligations.TimerInstructionsCopyTheCounter :=
  fun x s => ⟨⟨_, rfl, setReg_advance_reg s x _, setReg_advance_frame s x _⟩, ⟨_, rfl, rfl, rfl, rfl, fun _ => rfl⟩,
    ⟨_, rfl, rfl, rfl, rfl, fun _ => rfl⟩⟩

/-- Settles O57: the issue writes the mode and `waitX`. -/
theorem keyWaitSuspendsTheEngine : Obligations.KeyWaitSuspendsTheEngine :=
  fun _ _ => ⟨_, rfl, rfl, rfl, rfl, rfl, fun _ => rfl⟩

/-- Ticks change the two timers only. -/
theorem ticks_frame (n : Nat) (s : State) : ticks n s = { s with dt := (ticks n s).dt, st := (ticks n s).st } :=
  (ticksCountDownToZero n s).2.2

theorem ticks_mode (n : Nat) (s : State) : (ticks n s).mode = s.mode := by rw [ticks_frame]
theorem ticks_waitX (n : Nat) (s : State) : (ticks n s).waitX = s.waitX := by rw [ticks_frame]
theorem ticks_pc (n : Nat) (s : State) : (ticks n s).pc = s.pc := by rw [ticks_frame]
theorem ticks_reg (n : Nat) (s : State) (j : Nibble) : (ticks n s).reg j = s.reg j := by rw [ticks_frame]; rfl
theorem ticks_key (n : Nat) (s : State) (j : Nibble) : (ticks n s).key j = s.key j := by rw [ticks_frame]; rfl

/-- The step that takes the press of a released key while the engine waits completes the wait. -/
theorem step_of_ending_press {s : State} {k : Nibble} (es : List Event) (hwait : s.mode = .waitKey) (hkey : s.key k = false) :
    step { s with inputs := .setKey k true :: es } = .next (completeWait k { s with inputs := es }) :=
  (step_of_cons (e := .setKey k true) rfl).trans
    (congrArg Host.Outcome.next (setKeyEvent_of_completes (s := { s with inputs := es }) hwait hkey))

/-- Settles O58: the ticks keep what the issue left, so the step request changes nothing and the press completes the wait
(`step_of_ending_press`). -/
theorem keyWaitEndsWithThePressedKey : Obligations.KeyWaitEndsWithThePressedKey := by
  intro x k s t u n es hissue hkey hwait
  cases hissue
  rw [engineStep_of_wait (ticks_mode n _)] at hwait
  cases hwait
  refine ⟨_, step_of_ending_press es (ticks_mode n _) ((ticks_key n _ k).trans hkey), ?_, fun j hj => ?_, ?_, rfl, ?_, rfl⟩
  · simp [completeWait_reg, ticks_waitX, keyByte]; omega
  · rw [completeWait_reg, if_neg (by rwa [ticks_waitX])]; exact ticks_reg n _ j
  · exact congrArg (· + 2) (ticks_pc n _)
  · rw [completeWait_key, if_pos rfl]

end Sys2Proof.Machine

/-! SUPPORT. The memory instructions (42_index_memory.md R164 to R167): what the stores leave in memory, what a fetch or a load
reads there, and the ranges they report. -/

namespace Sys2Proof.Machine

theorem get_stored {s : State} (hwf : s.mem.wf = true) {bytes : List Byte} (h : s.i.toNat + bytes.length ≤ 4096) {k : Nat}
    (hk : k < bytes.length) : Memory.get (stored s bytes).mem (s.i.toNat + k) = bytes[k] :=
  get_storeBytes_inside hwf h hk

/-- A store at `I` changes `pc` and the bytes it names only. -/
theorem onlyStoredPc_stored (s : State) {bytes : List Byte} {n : Nat} (hn : bytes.length = n) :
    OnlyStoredPc s.i.toNat n s (stored s bytes) :=
  ⟨rfl, fun _ ha => get_storeBytes_outside (hn ▸ ha) s.mem⟩

/-- After LD [I],Vx the byte at `I + k` is `Vk`. -/
theorem get_stored_regsUpTo {x : Nibble} {s : State} (hwf : s.mem.wf = true) (h : s.i.toNat + x.toNat < 4096) {k : Nat}
    (hk : k ≤ x.toNat) : Memory.get (stored s (s.regsUpTo x)).mem (s.i.toNat + k) = s.reg (BitVec.ofNat 4 k) := by
  have hlen := length_regsUpTo s x
  have hk' : k < (s.regsUpTo x).length := by omega
  rw [get_stored hwf (by omega) hk', getElem_regsUpTo]

/-- The digits of a byte: hundreds, tens, ones (42_index_memory.md R164). -/
theorem toNat_bcdDigits (v : Byte) : (bcdDigits v)[0].toNat = v.toNat / 100 ∧ (bcdDigits v)[1].toNat = v.toNat / 10 % 10 ∧
    (bcdDigits v)[2].toNat = v.toNat % 10 := by
  simp only [bcdDigits, List.getElem_cons_zero, List.getElem_cons_succ, BitVec.toNat_ofNat]
  omega

/-- Settles O48: each byte is a digit of `bcdDigits`, and the digits make up the value. -/
theorem bcdStoresTheDecimalDigits : Obligations.BcdStoresTheDecimalDigits := by
  intro x s hwf h
  have hbyte : ∀ k (hk : k < 3), Memory.get (stored s (bcdDigits (s.reg x))).mem (s.i.toNat + k) =
      (bcdDigits (s.reg x))[k] := fun k hk => get_stored (bytes := bcdDigits (s.reg x)) hwf h hk
  obtain ⟨hhundreds, htens, hones⟩ := toNat_bcdDigits (s.reg x)
  rw [← hbyte 0 (by decide), Nat.add_zero] at hhundreds
  rw [← hbyte 1 (by decide)] at htens
  rw [← hbyte 2 (by decide)] at hones
  refine ⟨_, exec_ldBVx_of_lt h, ?_, ?_, ?_, ?_, rfl, onlyStoredPc_stored s rfl⟩ <;> omega

/-- Settles O49: `get_stored_regsUpTo`. -/
theorem registerBlockIsStored : Obligations.RegisterBlockIsStored := by
  intro x s hwf h
  refine ⟨_, exec_ldMemVx_of_lt h, fun j hj => ?_, rfl, onlyStoredPc_stored s (length_regsUpTo s x)⟩
  rw [get_stored_regsUpTo hwf h hj, BitVec.ofNat_toNat, BitVec.setWidth_eq]

/-- Settles O13: the two bytes of the fetch are two neighbours of the stored block. -/
theorem storedBytesAreFetched : Obligations.StoredBytesAreFetched := by
  intro x s k hwf hk h
  refine ⟨_, exec_ldMemVx_of_lt h, fun u hmem hpc => ?_⟩
  rw [fetch_of_lt (by omega), hmem, hpc, get_stored_regsUpTo hwf h (Nat.le_of_lt hk), Nat.add_assoc,
    get_stored_regsUpTo hwf h hk]

/-- Settles O50: `reg_setRegsFrom_loadBytes`. -/
theorem registerBlockIsLoaded : Obligations.RegisterBlockIsLoaded := by
  intro x s h
  have hreg := reg_setRegsFrom_loadBytes s s.mem s.i.toNat (x.toNat + 1)
  refine ⟨_, execLdVxMem_of_le h, fun j hj => ?_, fun j hj => ?_, rfl, rfl, fun _ => rfl⟩
  · exact (hreg j).trans (if_pos (Nat.lt_succ_of_le hj))
  · exact (hreg j).trans (if_neg (by omega))

/-- Settles O51: the load reads (`registerBlockIsLoaded`) the bytes the store left (`registerBlockIsStored`). -/
theorem loadRestoresWhatStoreSaved : Obligations.LoadRestoresWhatStoreSaved := by
  intro x s t u hwf hstore hmem hi
  obtain ⟨hfits, _⟩ := storeAtIndex_next (by simp) hstore
  rw [length_regsUpTo] at hfits
  obtain ⟨t', hstore', hbytes, _⟩ := registerBlockIsStored x s hwf hfits
  cases hstore.symm.trans hstore'
  obtain ⟨v, hload, hregs, _⟩ := registerBlockIsLoaded x u (by rw [hi]; exact hfits)
  exact ⟨v, hload, fun j hj => by rw [hregs j hj, hmem, hi, hbytes j hj]⟩

/-- Settles O52: each report is that of the instruction's check (`exec_of_faultOf_some`). -/
theorem accessesBeyondMemoryAreReported : Obligations.AccessesBeyondMemoryAreReported := by
  intro x y n s
  refine ⟨fun h => exec_of_faultOf_some (if_pos h), fun h => exec_of_faultOf_some (if_pos h),
    fun h => exec_of_faultOf_some (if_pos h), fun hn h => exec_of_faultOf_some (if_pos ⟨?_, by omega⟩)⟩
  exact Nat.pos_of_ne_zero fun h0 => hn (BitVec.eq_of_toNat_eq h0)

end Sys2Proof.Machine

/-! SUPPORT. The sprite draw (43_display.md R182, R183): the covered cells, and what DRW makes of the screen and of VF. -/

namespace Sys2Proof.Machine

/-- The cells `spriteCovers` names are those of the rule. -/
theorem covers_iff_spriteCovers (x y n : Nibble) (s : State) (row : Fin 32) (col : Fin 64) :
    Covers x y n s row col ↔
      spriteCovers (s.reg x).toNat (s.reg y).toNat 0 (loadBytes s.mem s.i.toNat n.toNat) row col = true := by
  rw [spriteCovers_iff]
  simp only [Covers, length_loadBytes, getElem_loadBytes, Nat.zero_add]
  constructor
  · rintro ⟨r, c, hr, hrest⟩; exact ⟨r, hr, c, hrest⟩
  · rintro ⟨r, hr, c, hrest⟩; exact ⟨r, c, hr, hrest⟩

theorem length_sprite_le (n : Nibble) (m : Memory) (base : Nat) : (loadBytes m base n.toNat).length ≤ 32 := by
  rw [length_loadBytes]; omega

theorem pixel_drawn_of_covers {x y n : Nibble} {s : State} {row : Fin 32} {col : Fin 64} (h : Covers x y n s row col) :
    (drawn x y n s).1.pixel row col = !s.fb.pixel row col := by
  rw [covers_iff_spriteCovers] at h
  rw [drawn, (drawSprite_spec _ _ _ _ (length_sprite_le n _ _)).1, h, Bool.xor_true]

theorem pixel_drawn_of_not_covers {x y n : Nibble} {s : State} {row : Fin 32} {col : Fin 64}
    (h : ¬ Covers x y n s row col) : (drawn x y n s).1.pixel row col = s.fb.pixel row col := by
  rw [covers_iff_spriteCovers, Bool.not_eq_true] at h
  rw [drawn, (drawSprite_spec _ _ _ _ (length_sprite_le n _ _)).1, h, Bool.xor_false]

/-- A draw collides exactly when some covered cell was 1. -/
theorem collided_drawn_iff (x y n : Nibble) (s : State) :
    (drawn x y n s).2 = true ↔ ∃ row col, Covers x y n s row col ∧ s.fb.pixel row col = true := by
  simp only [covers_iff_spriteCovers]
  exact (drawSprite_spec _ _ _ _ (length_sprite_le n _ _)).2

theorem exec_drwVxVyN_of_inside {x y n : Nibble} {s : State} (h : SpriteInside n s) :
    exec (.drwVxVyN x y n) s = .next (afterDraw x y n s) :=
  exec_drwVxVyN_of_le (h.imp_left fun h0 => congrArg BitVec.toNat h0)

theorem spriteInside_of_next {x y n : Nibble} {s t : State} (h : exec (.drwVxVyN x y n) s = .next t) : SpriteInside n s :=
  (execDrwVxVyN_next h).1.imp_left BitVec.eq_of_toNat_eq

theorem afterDraw_reg_flag (x y n : Nibble) (s : State) : (afterDraw x y n s).reg 15 = flagByte (drawn x y n s).2 :=
  State.setReg_reg_self _ 15 _

theorem afterDraw_reg_of_ne (x y n : Nibble) (s : State) {j : Nibble} (hj : j ≠ 15) : (afterDraw x y n s).reg j = s.reg j :=
  State.setReg_reg_of_ne _ hj _

theorem flagByte_eq_one_iff (b : Bool) : flagByte b = 1 ↔ b = true := by
  cases b <;> decide

/-- Settles O54: the pixels by `pixel_drawn_of_covers` and its converse, VF by `collided_drawn_iff`. -/
theorem drawXorsTheSprite : Obligations.DrawXorsTheSprite := by
  intro x y n s hinside
  refine ⟨_, exec_drwVxVyN_of_inside hinside, fun _ _ => pixel_drawn_of_covers, fun _ _ => pixel_drawn_of_not_covers,
    fun hset => ?set, fun hclear => ?clear, fun j => afterDraw_reg_of_ne x y n s, rfl, rfl, rfl, fun _ => rfl⟩
  case set => rw [afterDraw_reg_flag, (collided_drawn_iff x y n s).2 hset]; rfl
  case clear =>
    have hnone : (drawn x y n s).2 = false := by
      rw [← Bool.not_eq_true, collided_drawn_iff]
      rintro ⟨row, col, hcov, hpix⟩
      cases (hclear row col hcov).symm.trans hpix
    rw [afterDraw_reg_flag, hnone]; rfl

/-- A draw covers the same cells the second time, as long as VF is no coordinate. -/
theorem covers_afterDraw_iff {x y : Nibble} (hx : x ≠ 15) (hy : y ≠ 15) (n : Nibble) (s : State) (row : Fin 32)
    (col : Fin 64) : Covers x y n (afterDraw x y n s) row col ↔ Covers x y n s row col := by
  unfold Covers
  rw [afterDraw_reg_of_ne x y n s hx, afterDraw_reg_of_ne x y n s hy]
  rfl

/-- The second draw inverts the covered cells back. -/
theorem drawn_afterDraw {x y : Nibble} (hx : x ≠ 15) (hy : y ≠ 15) (n : Nibble) (s : State) :
    (drawn x y n (afterDraw x y n s)).1 = s.fb := by
  refine Framebuffer.ext_pixel fun row col => ?_
  have hcovers := covers_afterDraw_iff hx hy n s row col
  by_cases h : Covers x y n s row col
  · rw [pixel_drawn_of_covers (hcovers.2 h)]
    exact (congrArg (!·) (pixel_drawn_of_covers h)).trans (Bool.not_not _)
  · rw [pixel_drawn_of_not_covers (mt hcovers.1 h)]
    exact pixel_drawn_of_not_covers h

/-- Settles O55: the framebuffer by `drawn_afterDraw`, both collisions by `collided_drawn_iff`. -/
theorem drawingTwiceRestoresTheScreen : Obligations.DrawingTwiceRestoresTheScreen := by
  intro x y n s t hx hy hdraw
  have hinside := spriteInside_of_next hdraw
  cases hdraw.symm.trans (exec_drwVxVyN_of_inside hinside)
  refine ⟨_, exec_drwVxVyN_of_inside (s := afterDraw x y n s) hinside, drawn_afterDraw hx hy n s, ?first, ?second⟩
  case first => rw [afterDraw_reg_flag, flagByte_eq_one_iff, collided_drawn_iff]
  case second =>
    rw [afterDraw_reg_flag, flagByte_eq_one_iff, collided_drawn_iff]
    refine exists_congr fun row => exists_congr fun col => ?_
    rw [covers_afterDraw_iff hx hy]
    refine and_congr_right fun hcov => ?_
    have hpixel : (afterDraw x y n s).fb.pixel row col = !s.fb.pixel row col := pixel_drawn_of_covers hcov
    rw [hpixel, Bool.not_eq_true']

end Sys2Proof.Machine
